-- ==== Sys2Proof/Word.lean ====
section
/-! DEFINITION. The bit-vector widths of the CPB (00_scope.md R8, R9): a byte of a frame, a 16-bit
register address, data value or operand, a 32-bit host register or TMEM element, a 64-bit command
word or TDESC element. All values are unsigned (R9). -/

namespace Sys2Proof

/-- One byte of a frame on the bus, or one element of `SEQBUF` (R10, R37). -/
abbrev Byte := BitVec 8

/-- A 16-bit register address, data value, count, index or delay (R8, R73). -/
abbrev Half := BitVec 16

/-- A 32-bit host register or `TMEM` element (R22, R35). -/
abbrev Word := BitVec 32

/-- A 64-bit command word or `TDESC` element (R36, R70). -/
abbrev DWord := BitVec 64

/-- A 2-bit width code, the field `AW` or `DW` as it is encoded (R72). -/
abbrev WidthCode := BitVec 2

end Sys2Proof
end

