-- ==== Sys2Proof/Syntax.lean ====
section
/-! DEFINITION. The commands of the CPB as data (30_encoding.md R70 to R77) and the lines of its
assembler (R84). There is one command format, so every constructor of Instr carries the same fields;
which of them a command reads is R77. RSV0 and RSV1 are fields of the syntax because a nonzero one is
an error the command raises when it executes, not a decoding failure (R74, R78). -/

namespace Sys2Proof

/-- The fields of a command word besides its opcode (R71). -/
structure Fields where
  /-- `CMD[5:4]`, address width code. -/
  aw : WidthCode
  /-- `CMD[7:6]`, data width code. -/
  dw : WidthCode
  /-- `CMD[15:8]`, reserved, must be 0. -/
  rsv0 : Byte
  /-- `CMD[31:16]`, first operand: register address, table base or descriptor index. -/
  opa : Half
  /-- `CMD[47:32]`, second operand: data value or count. -/
  opb : Half
  /-- `CMD[63:48]`, reserved, must be 0. -/
  rsv1 : Half
  deriving DecidableEq, Repr

/-- The nine commands (R75), one per row of the opcode table. -/
inductive Instr where
  /-- `ENCW`, opcode 0x1: encode a write frame (R111). -/
  | encw (f : Fields)
  /-- `ENCA`, opcode 0x2: encode an address frame (R112). -/
  | enca (f : Fields)
  /-- `DECR`, opcode 0x3: decode read-back bytes (R113). -/
  | decr (f : Fields)
  /-- `WRS`, opcode 0x4: write one register (R130). -/
  | wrs (f : Fields)
  /-- `RD`, opcode 0x5: read one register (R131). -/
  | rd (f : Fields)
  /-- `WSEQ`, opcode 0x6: sequential burst write (R132). -/
  | wseq (f : Fields)
  /-- `WTBL`, opcode 0x7: apply one list of entries (R146). -/
  | wtbl (f : Fields)
  /-- `WTBLS`, opcode 0x8: apply one table and wait its settle delay (R147). -/
  | wtbls (f : Fields)
  /-- `WALL`, opcode 0x9: apply a list of tables, each with its settle delay (R148). -/
  | wall (f : Fields)
  deriving DecidableEq, Repr

/-- The fields of a command, whichever it is. -/
def Instr.fields : Instr → Fields
  | .encw f | .enca f | .decr f | .wrs f | .rd f | .wseq f | .wtbl f | .wtbls f | .wall f => f

/-- Whether the command uses (checks and reads) its `AW` field (R77). -/
def Instr.usesAw : Instr → Bool
  | .decr _ => false
  | .encw _ | .enca _ | .wrs _ | .rd _ | .wseq _ | .wtbl _ | .wtbls _ | .wall _ => true

/-- Whether the command uses (checks and reads) its `DW` field (R77). -/
def Instr.usesDw : Instr → Bool
  | .encw _ | .decr _ | .wrs _ | .rd _ | .wtbl _ => true
  | .enca _ | .wseq _ | .wtbls _ | .wall _ => false

/-- One line of the assembler (R84). -/
inductive Asm where
  | encw (aw dw : WidthCode) (addr data : Half)
  | enca (aw : WidthCode) (addr : Half)
  | decr (dw : WidthCode)
  | wrs (aw dw : WidthCode) (addr data : Half)
  | rd (aw dw : WidthCode) (addr : Half)
  | wseq (aw : WidthCode) (addr n : Half)
  | wtbl (aw dw : WidthCode) (base count : Half)
  | wtbls (aw : WidthCode) (desc : Half)
  | wall (aw : WidthCode) (first m : Half)
  /-- `.cmd64`: any 64-bit word. -/
  | cmd64 (w : DWord)
  deriving DecidableEq, Repr

end Sys2Proof
end

