-- ==== Sys2Proof/Decode.lean ====
section
/-! DEFINITION. The command decoder, total on 64-bit words and by opcode alone (30_encoding.md R71, R75,
R78), the encoder, and the assembler (R84). -/

namespace Sys2Proof

/-- Why a word is no command: its opcode is reserved (R76). -/
inductive DecodeError where
  /-- `OP` is 0x0 or 0xA to 0xF. -/
  | reservedOpcode (op : BitVec 4)
  deriving DecidableEq, Repr

/-- `OP = CMD[3:0]` (R71). -/
def wordOp (w : DWord) : BitVec 4 := w.extractLsb' 0 4

/-- The fields of a word at the bit positions of R71. -/
def wordFields (w : DWord) : Fields where
  aw := w.extractLsb' 4 2
  dw := w.extractLsb' 6 2
  rsv0 := w.extractLsb' 8 8
  opa := w.extractLsb' 16 16
  opb := w.extractLsb' 32 16
  rsv1 := w.extractLsb' 48 16

/-- The command a word is, by `OP` alone (R75, R78); a reserved opcode is rejected by name (R76). -/
def decode (w : DWord) : Except DecodeError Instr :=
  let f := wordFields w
  match wordOp w with
  | 0x1#4 => .ok (.encw f)
  | 0x2#4 => .ok (.enca f)
  | 0x3#4 => .ok (.decr f)
  | 0x4#4 => .ok (.wrs f)
  | 0x5#4 => .ok (.rd f)
  | 0x6#4 => .ok (.wseq f)
  | 0x7#4 => .ok (.wtbl f)
  | 0x8#4 => .ok (.wtbls f)
  | 0x9#4 => .ok (.wall f)
  | op => .error (.reservedOpcode op)

/-- The opcode of a command (R75). -/
def opcodeOf : Instr → BitVec 4
  | .encw _ => 0x1#4
  | .enca _ => 0x2#4
  | .decr _ => 0x3#4
  | .wrs _ => 0x4#4
  | .rd _ => 0x5#4
  | .wseq _ => 0x6#4
  | .wtbl _ => 0x7#4
  | .wtbls _ => 0x8#4
  | .wall _ => 0x9#4

/-- A command word from its opcode and fields: `RSV1:OPB:OPA:RSV0:DW:AW:OP` (R71). -/
def packWord (op : BitVec 4) (f : Fields) : DWord :=
  f.rsv1 ++ f.opb ++ f.opa ++ f.rsv0 ++ f.dw ++ f.aw ++ op

/-- The word of a command (R71, R75). -/
def encode (i : Instr) : DWord := packWord (opcodeOf i) i.fields

/-- Fields with the reserved fields 0, as the assembler fills them (R84). -/
def asmFields (aw dw : WidthCode) (opa opb : Half) : Fields :=
  { aw := aw, dw := dw, rsv0 := 0#8, opa := opa, opb := opb, rsv1 := 0#16 }

/-- The word an assembler line emits: fields a mnemonic does not name assemble as 0 (R84). -/
def assemble : Asm → DWord
  | .encw aw dw a d => encode (.encw (asmFields aw dw a d))
  | .enca aw a => encode (.enca (asmFields aw 0#2 a 0#16))
  | .decr dw => encode (.decr (asmFields 0#2 dw 0#16 0#16))
  | .wrs aw dw a d => encode (.wrs (asmFields aw dw a d))
  | .rd aw dw a => encode (.rd (asmFields aw dw a 0#16))
  | .wseq aw a n => encode (.wseq (asmFields aw 0#2 a n))
  | .wtbl aw dw b n => encode (.wtbl (asmFields aw dw b n))
  | .wtbls aw k => encode (.wtbls (asmFields aw 0#2 k 0#16))
  | .wall aw k m => encode (.wall (asmFields aw 0#2 k m))
  | .cmd64 w => w

/-- The letter or digit of a width code in assembler text (R84). -/
def widthText (c : WidthCode) : String :=
  match c with
  | 0#2 => "0"
  | 1#2 => "B"
  | 2#2 => "W"
  | 3#2 => "3"

/-- The text of an assembler line, its operands in decimal (R84). -/
def asmText : Asm → String
  | .encw aw dw a d => "ENCW." ++ widthText aw ++ "." ++ widthText dw ++ " " ++ toString a.toNat ++ ", " ++ toString d.toNat
  | .enca aw a => "ENCA." ++ widthText aw ++ " " ++ toString a.toNat
  | .decr dw => "DECR." ++ widthText dw
  | .wrs aw dw a d => "WRS." ++ widthText aw ++ "." ++ widthText dw ++ " " ++ toString a.toNat ++ ", " ++ toString d.toNat
  | .rd aw dw a => "RD." ++ widthText aw ++ "." ++ widthText dw ++ " " ++ toString a.toNat
  | .wseq aw a n => "WSEQ." ++ widthText aw ++ " " ++ toString a.toNat ++ ", " ++ toString n.toNat
  | .wtbl aw dw b n => "WTBL." ++ widthText aw ++ "." ++ widthText dw ++ " " ++ toString b.toNat ++ ", " ++ toString n.toNat
  | .wtbls aw k => "WTBLS." ++ widthText aw ++ " " ++ toString k.toNat
  | .wall aw k m => "WALL." ++ widthText aw ++ " " ++ toString k.toNat ++ ", " ++ toString m.toNat
  | .cmd64 w => ".cmd64 " ++ toString w.toNat

/-- The 64-bit word of an instruction of `nbits` bits given as a number, the bits above them 0. -/
def tableWord (nbits w : Nat) : DWord := BitVec.ofNat 64 (w % 2 ^ nbits)

/-- What the decoder reads from an opcode-table word: `CMD_LO` holds bits 31:0 and `CMD_HI` bits 63:32
(R70), so the table's numbering is the command word's own. -/
def decodeTableWord (nbits w : Nat) : Option Instr :=
  if nbits ≤ 64 then (decode (tableWord nbits w)).toOption else none

end Sys2Proof
end

