-- ==== Sys2Proof/Config.lean ====
section
/-! DEFINITION. The OPEN parameters of 00_scope.md R8 and 92_eei_decisions.md (D14, D15, D16), and the
free values of the model. Every constant here is opaque: no proof can see a value the spec leaves
open. The parameters reach the machine through the field `params` of State, so that a claim about
every state is a claim for every value of them (notes/assumptions/5.md). -/

namespace Sys2Proof

/-- The domain {`Ok`, `InvalidArgument`} of `EMPTY_TABLE_RESULT` and `EMPTY_LIST_RESULT`
(R8; D14, D15). -/
inductive EmptyResult where
  | ok
  | invalidArgument
  deriving DecidableEq, Repr, Inhabited

/-- The parameters of R8 the source leaves open. The sizes are held as the last index, so that their
bounds (1 to 65536, 1 to 65536, 1 to 65535) are part of the type. -/
structure Params where
  /-- `TMEM_ENTRIES - 1` (R35). -/
  tmemTop : Fin 65536
  /-- `TDESC_ENTRIES - 1` (R36). -/
  tdescTop : Fin 65536
  /-- `SEQ_MAX - 1` (R37). -/
  seqTop : Fin 65535
  /-- `EMPTY_TABLE_RESULT` (R141; D14). -/
  emptyTable : EmptyResult
  /-- `EMPTY_LIST_RESULT` (R148; D15). -/
  emptyList : EmptyResult
  /-- `SETTLE_AFTER_FAILURE` (R143; D16, 90_conflicts.md C1). -/
  settleAfterFailure : Bool
  deriving DecidableEq, Repr

/-- `TMEM_ENTRIES`, 1 to 65536 (R8). -/
def Params.tmemEntries (p : Params) : Nat := p.tmemTop.val + 1

/-- `TDESC_ENTRIES`, 1 to 65536 (R8). -/
def Params.tdescEntries (p : Params) : Nat := p.tdescTop.val + 1

/-- `SEQ_MAX`, 1 to 65535 (R8). -/
def Params.seqMax (p : Params) : Nat := p.seqTop.val + 1

/-- `TMEM_ENTRIES - 1` of the machine at hand: OPEN (R8), no value. DESIGN CHOICE log 5. -/
opaque Config.tmemTop : Fin 65536
/-- `TDESC_ENTRIES - 1` of the machine at hand: OPEN (R8), no value. -/
opaque Config.tdescTop : Fin 65536
/-- `SEQ_MAX - 1` of the machine at hand: OPEN (R8), no value. -/
opaque Config.seqTop : Fin 65535
/-- `EMPTY_TABLE_RESULT` of the machine at hand: OPEN (D14), no value. -/
opaque Config.emptyTable : EmptyResult
/-- `EMPTY_LIST_RESULT` of the machine at hand: OPEN (D15), no value. -/
opaque Config.emptyList : EmptyResult
/-- `SETTLE_AFTER_FAILURE` of the machine at hand: OPEN (D16), no value. -/
opaque Config.settleAfterFailure : Bool

/-- The parameters of the machine at hand, every one of them open. -/
def Config.params : Params where
  tmemTop := Config.tmemTop
  tdescTop := Config.tdescTop
  seqTop := Config.seqTop
  emptyTable := Config.emptyTable
  emptyList := Config.emptyList
  settleAfterFailure := Config.settleAfterFailure

/-- Free value: what a HOST read of `TMEM` element `i` returns when nothing has written it since reset
number `k` (R35 "Contents after reset are unspecified"; notes/assumptions/7.md). -/
opaque Config.unwrittenTmem (k i : Nat) : Word
/-- Free value: the same for `TDESC` element `i` (R36). -/
opaque Config.unwrittenTdesc (k i : Nat) : DWord
/-- Free value: the same for `SEQBUF` element `i` (R37). -/
opaque Config.unwrittenSeq (k i : Nat) : Byte

end Sys2Proof
end

