-- ==== Sys2Proof/Machine/State.lean ====
section
/-! DEFINITION. The state of the CPB as plain data (10_state.md), the turns of its agents, the reasons a
step can stop, and the state after reset (70_reset_and_hazards.md R190, R191). -/

namespace Sys2Proof.Machine

/-- The results of `STATUS.ERR` by the source's names (00_scope.md R12, 60_exceptions.md R171). -/
inductive Result where
  | ok
  | invalidWidth
  | invalidArgument
  | transportFailure
  /-- Reserved for host software; never raised by the CPB (R171). -/
  | deviceMismatch
  /-- Reserved for host software; never raised by the CPB (R171). -/
  | unsupported
  | genericFailure
  deriving DecidableEq, Repr

/-- The transport's answer to a request (41_bus_transactions.md R122). -/
inductive Response where
  | fail
  | ok (rb : List Byte)
  deriving DecidableEq, Repr

/-- A transaction request (R121): device address, bytes written, number of bytes to read. -/
structure Request where
  dev : BitVec 7
  wbytes : List Byte
  rlen : Nat
  deriving DecidableEq, Repr

/-- Where in its rule a command goes on when the engine next moves. DESIGN CHOICE log 2: the spec's
pseudocode blocks in `Transact` and `SettleAtLeast`; these are its points after each. -/
inductive Resume where
  /-- At the start of its rule, just launched. -/
  | start
  /-- After `Transact` returned `Fail` or `Ok(rb)` (R120). -/
  | answered (v : Response)
  /-- After `SettleAtLeast` returned (R145). -/
  | settled
  deriving DecidableEq, Repr

/-- The engine phase `ENG` (R38). -/
inductive Eng where
  | idle
  | exec (r : Resume)
  | waitBus
  | settle
  deriving DecidableEq, Repr

/-- The cursor `CUR` (R41): table index within the list, entry index within the table. Past the last entry
or table it is their number (R21; log 19). -/
structure Cursor where
  tbl : Nat
  ent : Nat
  deriving DecidableEq, Repr

/-- How and when (µs) a settle wait ended. The time is the end time of R69; which of the two ended it is
the model's addition (log 20), so that the lower bound of R145 can be stated of the waits it is about. -/
inductive WaitEnd where
  /-- The engine left the wait because it was over (R145). -/
  | over (t : Nat)
  /-- The reset input ended the wait (70_reset_and_hazards.md R190). -/
  | byReset (t : Nat)
  deriving DecidableEq, Repr

/-- An event of the history (20_memory.md R69). -/
inductive Event where
  /-- A transaction as issued, with the transport's answer once there is one. -/
  | txn (q : Request) (outcome : Option Response)
  /-- A settle wait of `ms` milliseconds, its start in µs and, once it has ended, its end. -/
  | settle (ms : Half) (start : Nat) (finish : Option WaitEnd)
  deriving DecidableEq, Repr

/-- What the host may do in one turn (R22, R34). -/
inductive HostAction where
  | writeReg (offset : Nat) (v : Word)
  | writeTmem (i : Nat) (v : Word)
  | writeTdesc (i : Nat) (v : DWord)
  | writeSeq (i : Nat) (b : Byte)
  | readReg (offset : Nat)
  | readTmem (i : Nat)
  | readTdesc (i : Nat)
  | readSeq (i : Nat)
  deriving DecidableEq, Repr

/-- One turn of one agent (00_scope.md R14; DESIGN CHOICE log 1). -/
inductive Turn where
  /-- The engine takes its next step, if it has one. -/
  | engine
  | host (a : HostAction)
  /-- The transport answers the outstanding request. -/
  | transport (r : Response)
  /-- The clock advances by `dt` µs (R39). -/
  | time (dt : Nat)
  /-- The reset input (R190). -/
  | reset
  deriving DecidableEq, Repr

/-- An element memory (R33): pairs of an index and a value, indices strictly rising. An index that is
not listed has not been written since reset and has no value (R190, 93 U1; log 6). -/
abbrev Mem (α : Type) := List (Nat × α)

/-- The canonical form of an element memory: indices strictly rising. (No entry can equal what an
unlisted index reads as, which is no value at all.) -/
abbrev Mem.wf {α : Type} (m : Mem α) : Prop := m.Pairwise (fun a b => a.1 < b.1)

/-- The state of the CPB. -/
structure State where
  /-- The OPEN parameters of R8; fixed for the machine (log 5). -/
  params : Params
  /-- `CMD_LO` (R23). -/
  cmdLo : Word
  /-- `CMD_HI` (R23). -/
  cmdHi : Word
  /-- `STATUS.TIER`: 1 coarse, 0 fine (R24). -/
  tier : Bool
  /-- `STATUS.OVR` (R24, R178). -/
  ovr : Bool
  /-- `STATUS.ERR` (R24, R171). -/
  err : Result
  /-- `CLIENT.DEV_ADDR` (R26). -/
  devAddr : BitVec 7
  /-- `RDATA.DATA` (R27). -/
  rdata : Half
  /-- `FRAME` (R28). -/
  frame : Word
  /-- `FRAME_LEN.LEN` (R29). -/
  frameLen : BitVec 3
  /-- `PROGRESS.ENT_DONE` (R30). -/
  entDone : Half
  /-- `PROGRESS.TBL_DONE` (R30). -/
  tblDone : Half
  /-- `TXN_COUNT` (R31). -/
  txnCount : Word
  /-- `TMEM` (R35). -/
  tmem : Mem Word
  /-- `TDESC` (R36). -/
  tdesc : Mem DWord
  /-- `SEQBUF` (R37). -/
  seqbuf : List Host.Cell
  /-- `ENG` (R38); `STATUS.BUSY` and `STATUS.SETTLING` are read from it (log 12). -/
  eng : Eng
  /-- `LCMD` (R38, R40). -/
  lcmd : DWord
  /-- `CUR` (R38, R41). -/
  cur : Cursor
  /-- `REQ` (R38, R120). -/
  req : Option Request
  /-- `SETTLE_T0` in µs (R38, R145). -/
  settleT0 : Nat
  /-- `SETTLE_MS` (R38, R145). -/
  settleMs : Half
  /-- `PEND` (R38, R143). -/
  pend : Result
  /-- The descriptor `d` of the table being applied (R143, D32; log 10). -/
  desc : DWord
  /-- The model clock in µs (R39). -/
  now : Nat
  /-- The history (R69), newest event first. -/
  trace : List Event
  /-- How many reset events have happened (the model's own; log 7). -/
  resets : Nat
  /-- The turns still to come (the model's own; log 1). -/
  agenda : List Turn
  deriving DecidableEq, Repr

/-- Why the machine stops. All three are raised by the engine's reads of its memories, where the spec
says a model stops: "a model treats an engine read of an element not written since reset as a fault"
(70_reset_and_hazards.md R194; 93 U1). Safe: the hardware would go on with an unspecified value. -/
inductive Fault where
  /-- `WTBL`, `WTBLS` or `WALL` needs `TMEM[i]`, which nothing has written since reset. Safe. -/
  | unwrittenTmem (i : Nat)
  /-- `WTBLS` or `WALL` needs `TDESC[i]`, which nothing has written since reset. Safe. -/
  | unwrittenTdesc (i : Nat)
  /-- `WSEQ` needs `SEQBUF[i]`, which nothing has written since reset. Safe. -/
  | unwrittenSeq (i : Nat)
  deriving DecidableEq, Repr

/-- Why the model gives no meaning. -/
inductive Refusal where
  /-- Raised only by an arm of exec whose command has no meaning yet; every command has one, so no
  step raises it. Safe. -/
  | notModelled (mnemonic : String)
  deriving DecidableEq, Repr

/-- The outcome of a step. -/
abbrev Out := Host.Outcome State Fault Refusal

/-- The machine right after reset (R190, R191). The hidden state `lcmd`, `cur`, `settleT0`, `settleMs`,
`pend` is unspecified there; DESIGN CHOICE log 8. The clock, the history and the agenda are the
model's; DESIGN CHOICE log 9. -/
def State.reset : State where
  params := Config.params
  cmdLo := 0#32
  cmdHi := 0#32
  tier := false
  ovr := false
  err := .ok
  devAddr := 0#7
  rdata := 0#16
  frame := 0#32
  frameLen := 0#3
  entDone := 0#16
  tblDone := 0#16
  txnCount := 0#32
  tmem := []
  tdesc := []
  seqbuf := []
  eng := .idle
  lcmd := 0#64
  cur := { tbl := 0, ent := 0 }
  req := none
  settleT0 := 0
  settleMs := 0#16
  pend := .ok
  desc := 0#64
  now := 0
  trace := []
  resets := 0
  agenda := []

end Sys2Proof.Machine
end

