-- ==== Sys2Proof/Machine/Flags.lean ====
section
/-! DEFINITION. The flags of STATUS (10_state.md R24, R25, R32, R38) and the codes of ERR
(60_exceptions.md R171). -/

namespace Sys2Proof.Machine

/-- `STATUS.BUSY = 1` exactly when `ENG != IDLE` (R38). -/
def isBusy (s : State) : Bool :=
  match s.eng with
  | .idle => false
  | .exec _ | .waitBus | .settle => true

/-- `STATUS.SETTLING = 1` exactly when `ENG = SETTLE` (R38). -/
def isSettling (s : State) : Bool :=
  match s.eng with
  | .settle => true
  | .idle | .exec _ | .waitBus => false

/-- `STATUS.TIER` of a wait of `ms` milliseconds: coarse above 20 (42_table_player.md R144, R145). -/
def tierOf (ms : Half) : Bool := decide (20 < ms.toNat)

/-- The 3-bit code of a result (R171). -/
def errCode : Result → BitVec 3
  | .ok => 0#3
  | .invalidWidth => 1#3
  | .invalidArgument => 2#3
  | .transportFailure => 3#3
  | .deviceMismatch => 4#3
  | .unsupported => 5#3
  | .genericFailure => 6#3

/-- The `STATUS` word (R24): `ERR` at 6:4, `OVR` 3, `TIER` 2, `SETTLING` 1, `BUSY` 0. -/
def statusWord (s : State) : Word :=
  0#25 ++ errCode s.err ++ BitVec.ofBool s.ovr ++ BitVec.ofBool s.tier ++
    BitVec.ofBool (isSettling s) ++ BitVec.ofBool (isBusy s)

/-- `OVR` after a host write of `v` to `STATUS`: bit 3 is write-1-to-clear (R24). -/
def ovrAfterStatusWrite (ovr : Bool) (v : Word) : Bool := ovr && !v.getLsbD 3

end Sys2Proof.Machine
end

