-- ==== Sys2Proof/Machine/Operands.lean ====
section
/-! DEFINITION. Operand forms: width codes, the pure codec functions (40_codec.md R100 to R108), the fields
of TMEM and TDESC elements (10_state.md R35, R36), and the EMPTY results (R8). -/

namespace Sys2Proof.Machine

/-- The two widths (R13, R72): a code outside them has no width, so `WidthBytes` of an illegal code
(93 U11) cannot be written. -/
inductive Width where
  | byte
  | word
  deriving DecidableEq, Repr

/-- The width a 2-bit code stands for; none for the illegal codes 0 and 3 (R72, R100). -/
def widthOf (c : WidthCode) : Option Width :=
  match c with
  | 1#2 => some .byte
  | 2#2 => some .word
  | _ => none

/-- `Legal(code)` (R100). -/
def legal (c : WidthCode) : Bool := (widthOf c).isSome

/-- `RSV0 = 0` and `RSV1 = 0` (30_encoding.md R74). -/
def reservedClear (f : Fields) : Bool := f.rsv0 == 0#8 && f.rsv1 == 0#16

/-- `WidthBytes` (R100). -/
def widthBytes : Width → Nat
  | .byte => 1
  | .word => 2

/-- The bytes of a 16-bit quantity on the bus, most significant first; Byte width drops bits 15:8
(20_memory.md R52; R101, R102). -/
def busBytes (w : Width) (v : Half) : List Byte :=
  match w with
  | .byte => [v.extractLsb' 0 8]
  | .word => [v.extractLsb' 8 8, v.extractLsb' 0 8]

/-- `EncodeAddress(aw, a)` (R101); none is `InvalidWidth`. -/
def encodeAddress (aw : WidthCode) (a : Half) : Option (List Byte) :=
  match widthOf aw with
  | none => none
  | some w => some (busBytes w a)

/-- `EncodeData(dw, d)` (R102); none is `InvalidWidth`. -/
def encodeData (dw : WidthCode) (d : Half) : Option (List Byte) :=
  match widthOf dw with
  | none => none
  | some w => some (busBytes w d)

/-- `EncodeWrite(aw, a, dw, d)` (R103): the address bytes, then the data bytes; none is
`InvalidWidth`. -/
def encodeWrite (aw : WidthCode) (a : Half) (dw : WidthCode) (d : Half) : Option (List Byte) :=
  match encodeAddress aw a, encodeData dw d with
  | some x, some y => some (x ++ y)
  | _, _ => none

/-- `DecodeRead(dw, bytes)` (R105): big-endian, the length exact; none is `InvalidWidth`. -/
def decodeRead (dw : WidthCode) (bytes : List Byte) : Option Half :=
  match widthOf dw, bytes with
  | some .byte, [b] => some (b.setWidth 16)
  | some .word, [b0, b1] => some (b0 ++ b1)
  | _, _ => none

/-- The `FRAME` value of a byte sequence: byte `k` at bits `8k+7:8k`, the rest 0 (R108). -/
def packBytes : List Byte → Word
  | [] => 0#32
  | b :: bs => b.setWidth 32 ||| (packBytes bs <<< 8)

/-- `PackFrame` (R108): the pair of `FRAME` and `FRAME_LEN.LEN`. -/
def packFrame (bytes : List Byte) : Word × BitVec 3 :=
  (packBytes bytes, BitVec.ofNat 3 bytes.length)

/-- `UnpackFrame` (R108): the first `LEN` bytes of `FRAME`; none when `LEN` names more bytes than
`FRAME` holds. -/
def unpackFrame (frame : Word) (len : BitVec 3) : Option (List Byte) :=
  if len.toNat ≤ 4 then some ((List.range len.toNat).map (fun k => frame.extractLsb' (8 * k) 8))
  else none

/-- `ADDR` of a `TMEM` element (R35). -/
def entryAddr (e : Word) : Half := e.extractLsb' 16 16

/-- `VALUE` of a `TMEM` element (R35). -/
def entryValue (e : Word) : Half := e.extractLsb' 0 16

/-- `BASE` of a `TDESC` element (R36). -/
def descBase (d : DWord) : Half := d.extractLsb' 0 16

/-- `COUNT` of a `TDESC` element (R36). -/
def descCount (d : DWord) : Half := d.extractLsb' 16 16

/-- `DELAY` of a `TDESC` element, in milliseconds (R36). -/
def descDelay (d : DWord) : Half := d.extractLsb' 32 16

/-- `DW` of a `TDESC` element (R36). -/
def descDw (d : DWord) : WidthCode := d.extractLsb' 48 2

/-- An EMPTY parameter as a result code (R8, R171). -/
def emptyResult : EmptyResult → Result
  | .ok => .ok
  | .invalidArgument => .invalidArgument

end Sys2Proof.Machine
end

