-- ==== Sys2Proof/Machine/Ops.lean ====
section
/-! DEFINITION. The operations every command is built from: element memories (10_state.md R34), ending a
command (60_exceptions.md R173), issuing and answering a transaction (41_bus_transactions.md R120), the
settle wait (42_table_player.md R145), launching (10_state.md R40), host accesses (R22 to R34,
70_reset_and_hazards.md R196) and the reset event (R190). -/

namespace Sys2Proof.Machine

/-! ### Element memories -/

/-- The value of element `i`, if it has been written since reset (R35 to R37). -/
def memRead {α : Type} : Mem α → Nat → Option α
  | [], _ => none
  | (k, v) :: m, i => if k = i then some v else memRead m i

/-- Element `i` becomes `v`; the indices stay strictly rising. -/
def memWrite {α : Type} : Mem α → Nat → α → Mem α
  | [], i, v => [(i, v)]
  | (k, u) :: m, i, v =>
    if i < k then (i, v) :: (k, u) :: m
    else if i = k then (i, v) :: m
    else (k, u) :: memWrite m i v

/-- `[MemRead(m, i), ..., MemRead(m, i + n - 1)]`, or the first index nothing has written. -/
def memReadMany {α : Type} (m : Mem α) (i : Nat) : Nat → Except Nat (List α)
  | 0 => .ok []
  | n + 1 =>
    match memRead m i with
    | none => .error i
    | some v =>
      match memReadMany m (i + 1) n with
      | .error j => .error j
      | .ok vs => .ok (v :: vs)

/-! ### Ending a command -/

/-- `Complete(code)` (R173): `raise E` is `complete E`, `complete` is `complete Ok`. This is the CPB's
analogue of taking an exception (R176): the code is recorded and the engine goes idle, so that `BUSY`
and `SETTLING` read 0; everything else stays. There is no return from it: the next launch clears
`ERR` (R177). -/
def State.complete (s : State) (code : Result) : State :=
  { s with err := code, eng := .idle }

/-! ### Transactions -/

/-- The issue of `Transact(CLIENT.DEV_ADDR, wbytes, rlen)` (R120): the request is outstanding and
counted, the engine waits, and the event is recorded. -/
def State.transact (s : State) (wbytes : List Byte) (rlen : Nat) : State :=
  { s with
    req := some { dev := s.devAddr, wbytes := wbytes, rlen := rlen }
    txnCount := s.txnCount + 1#32
    eng := .waitBus
    trace := .txn { dev := s.devAddr, wbytes := wbytes, rlen := rlen } none :: s.trace }

/-- What `Transact` returns for an answer: `Ok(rb)` only if `rb` has the requested length
(R120, R123). -/
def judge (rlen : Nat) : Response → Response
  | .fail => .fail
  | .ok rb => if rb.length = rlen then .ok rb else .fail

/-- The answer is recorded on the newest event, the outstanding transaction (R120, R69). -/
def recordOutcome (r : Response) : List Event → List Event
  | .txn q none :: es => .txn q (some r) :: es
  | es => es

/-- The transport's answer reaches the engine (R120): `ENG <- EXEC`, `REQ <- none`. With no request
outstanding an answer is ignored (R190). -/
def State.answer (s : State) (r : Response) : State :=
  match s.eng, s.req with
  | .waitBus, some q =>
    { s with eng := .exec (.answered (judge q.rlen r)), req := none, trace := recordOutcome r s.trace }
  | _, _ => s

/-! ### The settle wait -/

/-- `SettleAtLeast(ms)` up to where it blocks (R145). -/
def State.startSettle (s : State) (ms : Half) : State :=
  { s with
    settleMs := ms
    settleT0 := s.now
    tier := tierOf ms
    eng := .settle
    trace := .settle ms s.now none :: s.trace }

/-- The condition that enables the engine's next step in a settle wait (R145). -/
def settleOver (s : State) : Bool :=
  decide (s.settleMs.toNat * 1000 ≤ s.now - s.settleT0)

/-- The end is recorded on the newest event, the settle wait (R69). -/
def recordFinish (e : WaitEnd) : List Event → List Event
  | .settle ms t0 none :: es => .settle ms t0 (some e) :: es
  | es => es

/-- The end of `SettleAtLeast`: `ENG <- EXEC` (R145). -/
def State.endSettle (s : State) : State :=
  { s with eng := .exec .settled, trace := recordFinish (.over s.now) s.trace }

/-- The history in issue order (R69). -/
def State.history (s : State) : List Event := s.trace.reverse

/-! ### The cursor and PROGRESS -/

/-- An entry has been written: the cursor advances by one entry and `ENT_DONE` shows it
(R21, R41; 42_table_player.md R141). -/
def State.passEntry (s : State) : State :=
  { s with
    entDone := BitVec.ofNat 16 (s.cur.ent + 1)
    cur := { s.cur with ent := s.cur.ent + 1 } }

/-- Table `j` is completed, its settle wait included: the cursor advances by one table and `TBL_DONE`
shows it (R21, R41; 42_table_player.md R147, R148). -/
def State.passTable (s : State) (j : Nat) : State :=
  { s with
    tblDone := BitVec.ofNat 16 (j + 1)
    cur := { s.cur with tbl := j + 1 } }

/-! ### Launch, host accesses, reset -/

/-- The launch of `CMD_HI:CMD_LO` by a write of `v` to `CMD_HI` (R40). -/
def State.launch (s : State) (v : Word) : State :=
  { s with
    cmdHi := v
    lcmd := v ++ s.cmdLo
    err := .ok
    entDone := 0#16
    tblDone := 0#16
    cur := { tbl := 0, ent := 0 }
    eng := .exec .start }

/-- A host write to a register while `BUSY = 0` (R22, R23, R26, R28, R29, R31). Offsets not named here
are read-only (`RDATA` 0x10, `PROGRESS` 0x1C) or unmapped, and ignore the write (R22). -/
def State.writeRegIdle (s : State) (offset : Nat) (v : Word) : State :=
  match offset with
  | 0x00 => { s with cmdLo := v }
  | 0x04 => s.launch v
  | 0x08 => { s with ovr := ovrAfterStatusWrite s.ovr v }
  | 0x0C => { s with devAddr := v.extractLsb' 0 7 }
  | 0x14 => { s with frame := v }
  | 0x18 => { s with frameLen := v.extractLsb' 0 3 }
  | 0x20 => { s with txnCount := 0#32 }
  | _ => s

/-- A host write discarded because `BUSY = 1` (R196, R178). -/
def State.discard (s : State) : State := { s with ovr := true }

/-- A host write to a register (R196): while busy only a write to `STATUS` is accepted. -/
def State.writeReg (s : State) (offset : Nat) (v : Word) : State :=
  if isBusy s then
    if offset = 0x08 then { s with ovr := ovrAfterStatusWrite s.ovr v } else s.discard
  else s.writeRegIdle offset v

/-- `WriteTMEM(i, v)` (R34, R196). -/
def State.writeTmem (s : State) (i : Nat) (v : Word) : State :=
  if isBusy s then s.discard
  else if i < s.params.tmemEntries then { s with tmem := memWrite s.tmem i v }
  else s

/-- `WriteTDESC(i, v)` (R34, R196). -/
def State.writeTdesc (s : State) (i : Nat) (v : DWord) : State :=
  if isBusy s then s.discard
  else if i < s.params.tdescEntries then { s with tdesc := memWrite s.tdesc i v }
  else s

/-- `WriteSEQ(i, b)` (R34, R196). -/
def State.writeSeq (s : State) (i : Nat) (b : Byte) : State :=
  if isBusy s then s.discard
  else if i < s.params.seqMax then { s with seqbuf := memWrite s.seqbuf i b }
  else s

/-- The effect of a host action; a read changes nothing (R196). -/
def State.hostAct (s : State) : HostAction → State
  | .writeReg offset v => s.writeReg offset v
  | .writeTmem i v => s.writeTmem i v
  | .writeTdesc i v => s.writeTdesc i v
  | .writeSeq i b => s.writeSeq i b
  | .readReg _ | .readTmem _ | .readTdesc _ | .readSeq _ => s

/-- What a host read of a register returns (R22 to R31): reserved bits and unmapped or misaligned
offsets read 0. -/
def hostReadReg (s : State) (offset : Nat) : Word :=
  match offset with
  | 0x00 => s.cmdLo
  | 0x04 => s.cmdHi
  | 0x08 => statusWord s
  | 0x0C => s.devAddr.setWidth 32
  | 0x10 => s.rdata.setWidth 32
  | 0x14 => s.frame
  | 0x18 => s.frameLen.setWidth 32
  | 0x1C => s.tblDone ++ s.entDone
  | 0x20 => s.txnCount
  | _ => 0#32

/-- `ReadTMEM(i)` (R34): 0 at or beyond the size; a free value if nothing has written the element since
reset (log 7). -/
def hostReadTmem (s : State) (i : Nat) : Word :=
  if i < s.params.tmemEntries then (memRead s.tmem i).getD (Config.unwrittenTmem s.resets i) else 0#32

/-- `ReadTDESC(i)` (R34), as `ReadTMEM`. -/
def hostReadTdesc (s : State) (i : Nat) : DWord :=
  if i < s.params.tdescEntries then (memRead s.tdesc i).getD (Config.unwrittenTdesc s.resets i) else 0#64

/-- `ReadSEQ(i)` (R34), as `ReadTMEM`. -/
def hostReadSeq (s : State) (i : Nat) : Byte :=
  if i < s.params.seqMax then (memRead s.seqbuf i).getD (Config.unwrittenSeq s.resets i) else 0#8

/-- The clock advances (R39). -/
def State.advance (s : State) (dt : Nat) : State := { s with now := s.now + dt }

/-- The history at a reset (R190): a settle wait in progress ends, and gets its end time (R69); an
outstanding transaction is abandoned, and keeps no outcome (log 20). -/
def cutTrace (s : State) : List Event :=
  match s.eng with
  | .settle => recordFinish (.byReset s.now) s.trace
  | .idle | .exec _ | .waitBus => s.trace

/-- The reset event (R190): every register at its reset value, memories unwritten, the engine idle, a
settle wait ended and any outstanding transaction abandoned. The clock is not reset (R191); the
parameters, the history and the agenda are not CPB state. DESIGN CHOICE log 8 for the hidden state. -/
def State.resetEvent (s : State) : State :=
  { State.reset with
    params := s.params
    now := s.now
    trace := cutTrace s
    resets := s.resets + 1
    agenda := s.agenda }

/-- Where the engine resumes the current command. -/
def resumeOf (s : State) : Resume :=
  match s.eng with
  | .exec r => r
  | .idle | .waitBus | .settle => .start

/-- The check of the reserved fields (30_encoding.md R74), the first a command makes (60_exceptions.md
R174 step 2). -/
def checkReserved (f : Fields) (s : State) (rest : Out) : Out :=
  if reservedClear f then rest else .next (s.complete .invalidArgument)

end Sys2Proof.Machine
end

