-- ==== Sys2Proof/Machine/Bus.lean ====
section
/-! DEFINITION. The commands that issue one transaction: WRS, RD and WSEQ (41_bus_transactions.md R130 to
R132). Each has two engine steps: at its start it makes its checks and issues the transaction; once the
transport has answered, it completes. -/

namespace Sys2Proof.Machine

/-- After the transaction of a write: `raise TransportFailure` or `complete` (R130, R132). -/
def finishWrite (v : Response) (s : State) : Out :=
  match v with
  | .fail => .next (s.complete .transportFailure)
  | .ok _ => .next (s.complete .ok)

/-- After the transaction of `RD` (R131). `DecodeRead` cannot fail there, since the length has been
checked (R123); a length that does not fit is the transport's failure (90_conflicts.md C3; log 13). -/
def finishRead (dw : WidthCode) (v : Response) (s : State) : Out :=
  match v with
  | .fail => .next (s.complete .transportFailure)
  | .ok rb =>
    match decodeRead dw rb with
    | none => .next (s.complete .transportFailure)
    | some d => .next ({ s with rdata := d }.complete .ok)

/-- `WRS` (R130). -/
def execWrs (f : Fields) (s : State) : Out :=
  match resumeOf s with
  | .answered v => finishWrite v s
  | .start | .settled =>
    checkReserved f s <|
      match encodeWrite f.aw f.opa f.dw f.opb with
      | none => .next (s.complete .invalidWidth)
      | some bytes => .next (s.transact bytes 0)

/-- `RD` (R131): both widths are checked before the address phase. -/
def execRd (f : Fields) (s : State) : Out :=
  match resumeOf s with
  | .answered v => finishRead f.dw v s
  | .start | .settled =>
    checkReserved f s <|
      match encodeAddress f.aw f.opa, widthOf f.dw with
      | some bytes, some w => .next (s.transact bytes (widthBytes w))
      | _, _ => .next (s.complete .invalidWidth)

/-- `WSEQ` (R132): width, then count 0, then count above `SEQ_MAX`. -/
def execWseq (f : Fields) (s : State) : Out :=
  match resumeOf s with
  | .answered v => finishWrite v s
  | .start | .settled =>
    checkReserved f s <|
      match encodeAddress f.aw f.opa with
      | none => .next (s.complete .invalidWidth)
      | some bytes =>
        if f.opb.toNat = 0 then .next (s.complete .invalidArgument)
        else if s.params.seqMax < f.opb.toNat then .next (s.complete .invalidArgument)
        else
          match memReadMany s.seqbuf 0 f.opb.toNat with
          | .error i => .fault (.unwrittenSeq i)
          | .ok data => .next (s.transact (bytes ++ data) 0)

end Sys2Proof.Machine
end

