-- ==== Sys2Proof/Machine/Codec.lean ====
section
/-! DEFINITION. The codec commands ENCW, ENCA and DECR (40_codec.md R111 to R113). None of them uses the
bus; each completes in one engine step (92_eei_decisions.md D35). -/

namespace Sys2Proof.Machine

/-- `(FRAME, FRAME_LEN.LEN) <- PackFrame(r); complete`, or `InvalidWidth` (R111, R112). -/
def finishEncode (r : Option (List Byte)) (s : State) : Out :=
  match r with
  | none => .next (s.complete .invalidWidth)
  | some bytes =>
    .next ({ s with frame := (packFrame bytes).1, frameLen := (packFrame bytes).2 }.complete .ok)

/-- `ENCW` (R111). -/
def execEncw (f : Fields) (s : State) : Out :=
  checkReserved f s (finishEncode (encodeWrite f.aw f.opa f.dw f.opb) s)

/-- `ENCA` (R112). -/
def execEnca (f : Fields) (s : State) : Out :=
  checkReserved f s (finishEncode (encodeAddress f.aw f.opa) s)

/-- `DECR` (R113): the length test comes before the bytes are formed. -/
def execDecr (f : Fields) (s : State) : Out :=
  checkReserved f s <|
    match widthOf f.dw with
    | none => .next (s.complete .invalidWidth)
    | some w =>
      if s.frameLen.toNat ≠ widthBytes w then .next (s.complete .invalidWidth)
      else
        match (unpackFrame s.frame s.frameLen).bind (decodeRead f.dw) with
        | none => .next (s.complete .invalidWidth)
        | some v => .next ({ s with rdata := v }.complete .ok)

end Sys2Proof.Machine
end

