-- ==== Sys2Proof/Machine/Player.lean ====
section
/-! DEFINITION. The register table player: PlayEntries, PlayTable and the commands WTBL, WTBLS and WALL
(42_table_player.md R140 to R148). Each engine step runs the pseudocode from one blocking point (launch,
transport answer, end of a settle wait) to the next. -/

namespace Sys2Proof.Machine

/-! ### PlayEntries (R141) -/

/-- Entry `i` of the table at `base`: read it, encode it, issue its write (R141). The widths are legal
here, so the encoding cannot fail; were it to, nothing would be sent (log 13). -/
def issueEntry (aw dw : WidthCode) (base i : Nat) (s : State) : Out :=
  match memRead s.tmem (base + i) with
  | none => .fault (.unwrittenTmem (base + i))
  | some e =>
    match encodeWrite aw (entryAddr e) dw (entryValue e) with
    | none => .next (s.complete .invalidWidth)
    | some bytes => .next ({ s with cur := { s.cur with ent := i } }.transact bytes 0)

/-- `PlayEntries` up to its first transaction; `done` takes its result if there is none to issue
(R141). -/
def beginEntries (aw dw : WidthCode) (base n : Nat) (done : Result → State → Out) (s : State) : Out :=
  if n = 0 then done (emptyResult s.params.emptyTable) s else issueEntry aw dw base 0 s

/-- `PlayEntries` from the answer to entry `CUR.ent` to the next transaction or its result (R141). -/
def nextEntry (aw dw : WidthCode) (base n : Nat) (done : Result → State → Out) (v : Response)
    (s : State) : Out :=
  match v with
  | .fail => done .transportFailure s
  | .ok _ =>
    if s.cur.ent + 1 < n then issueEntry aw dw base (s.cur.ent + 1) s.passEntry
    else done .ok s.passEntry

/-! ### PlayTable (R143) -/

/-- `PlayTable` once the result of its table is known: `PEND <- r`, then the settle wait, which follows
a failed table only with `SETTLE_AFTER_FAILURE` (R143). -/
def endTable (r : Result) (s : State) : Out :=
  if r = .ok ∨ s.params.settleAfterFailure = true then
    .next ({ s with pend := r }.startSettle (descDelay s.desc))
  else .next ({ s with pend := r }.complete r)

/-- `PlayTable(aw, d)` for the table of list index `j`, up to where it blocks (R143). The sum
`BASE + COUNT` does not wrap. -/
def startTable (aw : WidthCode) (j : Nat) (d : DWord) (s : State) : Out :=
  let t : State := { s with entDone := 0#16, desc := d, cur := { tbl := j, ent := 0 } }
  if legal (descDw d) = false then endTable .invalidWidth t
  else if s.params.tmemEntries < (descBase d).toNat + (descCount d).toNat then
    endTable .invalidArgument t
  else beginEntries aw (descDw d) (descBase d).toNat (descCount d).toNat endTable t

/-- `PlayTable` from a transport answer on (R143). -/
def nextTableEntry (aw : WidthCode) (v : Response) (s : State) : Out :=
  nextEntry aw (descDw s.desc) (descBase s.desc).toNat (descCount s.desc).toNat endTable v s

/-- `d <- MemRead(TDESC, k + j)`, then its table (R147, R148). -/
def loadTable (aw : WidthCode) (k j : Nat) (s : State) : Out :=
  match memRead s.tdesc (k + j) with
  | none => .fault (.unwrittenTdesc (k + j))
  | some d => startTable aw j d s

/-! ### The commands -/

/-- What `WTBL` does with the result of its entries (R146). -/
def finishTbl (r : Result) (s : State) : Out := .next (s.complete r)

/-- `WTBL` (R146): widths, then range (the sum does not wrap), then the entries. -/
def execWtbl (f : Fields) (s : State) : Out :=
  match resumeOf s with
  | .answered v => nextEntry f.aw f.dw f.opa.toNat f.opb.toNat finishTbl v s
  | .start | .settled =>
    checkReserved f s <|
      if (legal f.aw && legal f.dw) = false then .next (s.complete .invalidWidth)
      else if s.params.tmemEntries < f.opa.toNat + f.opb.toNat then .next (s.complete .invalidArgument)
      else beginEntries f.aw f.dw f.opa.toNat f.opb.toNat finishTbl s

/-- `WTBLS` (R147). -/
def execWtbls (f : Fields) (s : State) : Out :=
  match resumeOf s with
  | .answered v => nextTableEntry f.aw v s
  | .settled =>
    if s.pend = .ok then .next ((s.passTable 0).complete .ok) else .next (s.complete s.pend)
  | .start =>
    checkReserved f s <|
      if legal f.aw = false then .next (s.complete .invalidWidth)
      else if s.params.tdescEntries ≤ f.opa.toNat then .next (s.complete .invalidArgument)
      else loadTable f.aw f.opa.toNat 0 s

/-- `WALL` (R148): width, then the empty list, then the range (the sum does not wrap), then the
tables. -/
def execWall (f : Fields) (s : State) : Out :=
  match resumeOf s with
  | .answered v => nextTableEntry f.aw v s
  | .settled =>
    if s.pend = .ok then
      if s.cur.tbl + 1 < f.opb.toNat then
        loadTable f.aw f.opa.toNat (s.cur.tbl + 1) (s.passTable s.cur.tbl)
      else .next ((s.passTable s.cur.tbl).complete .ok)
    else .next (s.complete s.pend)
  | .start =>
    checkReserved f s <|
      if legal f.aw = false then .next (s.complete .invalidWidth)
      else if f.opb.toNat = 0 then .next (s.complete (emptyResult s.params.emptyList))
      else if s.params.tdescEntries < f.opa.toNat + f.opb.toNat then .next (s.complete .invalidArgument)
      else loadTable f.aw f.opa.toNat 0 s

/-! ### Reserved opcodes -/

/-- A command whose opcode is reserved raises `GenericFailure` with no other effect
(30_encoding.md R76). -/
def execReserved (s : State) : Out := .next (s.complete .genericFailure)

end Sys2Proof.Machine
end

