-- ==== Sys2Proof/Machine/Dispatch.lean ====
section
/-! DEFINITION. One engine step of a command, from the point it has reached: one arm per constructor of
Instr (30_encoding.md R75). -/

namespace Sys2Proof.Machine

def exec (i : Instr) (s : State) : Host.Outcome State Fault Refusal :=
  match i with
  | .encw f => Sys2Proof.Machine.execEncw f s
  | .enca f => Sys2Proof.Machine.execEnca f s
  | .decr f => Sys2Proof.Machine.execDecr f s
  | .wrs f => Sys2Proof.Machine.execWrs f s
  | .rd f => Sys2Proof.Machine.execRd f s
  | .wseq f => Sys2Proof.Machine.execWseq f s
  | .wtbl f => Sys2Proof.Machine.execWtbl f s
  | .wtbls f => Sys2Proof.Machine.execWtbls f s
  | .wall f => Sys2Proof.Machine.execWall f s

end Sys2Proof.Machine
end

