-- ==== Sys2Proof/Machine/Turns.lean ====
section
/-! DEFINITION. The turns of the agents (00_scope.md R14). The engine's turn runs the latched command LCMD
(10_state.md R40), or ends a settle wait that is over (42_table_player.md R145); while it is idle or
waits for the transport it has nothing to do (41_bus_transactions.md R125, 70_reset_and_hazards.md
R192). -/

namespace Sys2Proof.Machine

/-- The engine's turn. -/
def engineTurn (s : State) : Out :=
  match s.eng with
  | .idle => .next s
  | .waitBus => .next s
  | .settle => if settleOver s then .next s.endSettle else .next s
  | .exec _ =>
    match decode s.lcmd with
    | .ok i => exec i s
    | .error _ => execReserved s

/-- What one turn does to the state. -/
def takeTurn (t : Turn) (s : State) : Out :=
  match t with
  | .engine => engineTurn s
  | .host a => .next (s.hostAct a)
  | .transport r => .next (s.answer r)
  | .time dt => .next (s.advance dt)
  | .reset => .next s.resetEvent

end Sys2Proof.Machine
end

