-- ==== Sys2Proof/Machine/Step.lean ====
section
/-! DEFINITION. One step of the machine: one turn of one agent (00_scope.md R14; notes/assumptions/1.md),
and how a command word comes to be the next to run (10_state.md R40; notes/assumptions/11.md). -/

namespace Sys2Proof.Machine

/-- One step: the first turn of the agenda, or the engine's if nobody else is to move. -/
def step (s : State) : Host.Outcome State Fault Refusal :=
  match s.agenda with
  | [] => engineTurn s
  | t :: rest => takeTurn t { s with agenda := rest }

/-- The state in which the command word `w` has just been launched (R40) and the engine is to move: the
very next step runs it. The CPB fetches nothing (R21); a command comes to run when the host writes
CMD_LO and CMD_HI (R70), and this stands for those two writes (notes/assumptions/11.md). A request left
over from an earlier command is dropped, so that the launch finds no transaction outstanding. -/
def State.withFetchWord (s : State) (nbits w : Nat) : State :=
  { s with
    cmdLo := (tableWord nbits w).extractLsb' 0 32
    req := none
    agenda := .engine :: s.agenda }.launch ((tableWord nbits w).extractLsb' 32 32)

end Sys2Proof.Machine
end

