-- ==== Sys2Proof/WellFormed.lean ====
section
/-! DEFINITION. Which commands are well formed: the reserved fields are 0 (30_encoding.md R71, R74) and
every width code the command uses is one of the two legal codes (R72, R77). A command that is not well
formed still executes: it completes with InvalidArgument or InvalidWidth (R174). -/

namespace Sys2Proof

/-- The legal width codes are 1 (Byte) and 2 (Word) (R72, R100). -/
def WidthCode.legal (c : WidthCode) : Bool := c == 1#2 || c == 2#2

/-- Both reserved fields are 0 (R74). -/
def Fields.reservedZero (f : Fields) : Bool := f.rsv0 == 0#8 && f.rsv1 == 0#16

/-- Every width code the command uses is legal (R72, R77). -/
def Instr.widthsLegal (i : Instr) : Bool :=
  (!i.usesAw || WidthCode.legal i.fields.aw) && (!i.usesDw || WidthCode.legal i.fields.dw)

/-- A command raises no error of the reserved-field check or the width check (steps 2 and 3 of
R174). -/
def Instr.wellFormed (i : Instr) : Bool := i.fields.reservedZero && i.widthsLegal

end Sys2Proof
end

