-- ==== Sys2Proof/Safety.lean ====
section
/-! DEFINITION. The terms claims use: the invariant every step keeps, what a lawful event of the history
is, and the agendas and histories of whole commands. -/

namespace Sys2Proof.Machine

/-- The result codes the CPB raises (60_exceptions.md R171): not DeviceMismatch, not Unsupported. -/
def Result.producible : Result → Bool
  | .ok | .invalidWidth | .invalidArgument | .transportFailure | .genericFailure => true
  | .deviceMismatch | .unsupported => false

/-- What every event of a history satisfies. A request is never empty, never longer than a write frame
(4 bytes) or the longest sequential frame, and never asks for more than 2 bytes (R121; log 14). A settle
wait the engine left lasted at least its length (R145); one that reset ended only did not end before it
began (R190). -/
def Event.lawful (p : Params) : Event → Prop
  | .txn q _ => 1 ≤ q.wbytes.length ∧ q.wbytes.length ≤ max 4 (2 + p.seqMax) ∧ q.rlen ≤ 2
  | .settle _ _ none => True
  | .settle ms t0 (some (.over t1)) => t0 ≤ t1 ∧ ms.toNat * 1000 ≤ t1 - t0
  | .settle _ t0 (some (.byReset t1)) => t0 ≤ t1

/-- The engine is in a settle wait or has just left one. -/
def Eng.inSettle (e : Eng) : Prop := e = .settle ∨ e = .exec .settled

/-- The engine waits for the transport or has just been answered. -/
def Eng.onBus (e : Eng) : Prop := e = .waitBus ∨ ∃ v, e = .exec (.answered v)

/-- How many transactions the table at hand has: the entries of the command's range or of the descriptor
in use, and one for a command without a table (R140, R143). -/
def tableEntries (w d : DWord) : Nat :=
  match decode w with
  | .ok (.wtbl f) => f.opb.toNat
  | .ok (.wtbls _) | .ok (.wall _) => (descCount d).toNat
  | .ok (.encw _) | .ok (.enca _) | .ok (.decr _) | .ok (.wrs _) | .ok (.rd _) | .ok (.wseq _) | .error _ => 1

/-- How many tables the command's list has: the table count of `WALL`, and one otherwise (R41, R148). -/
def listTables (w : DWord) : Nat :=
  match decode w with
  | .ok (.wall f) => f.opb.toNat
  | .ok (.encw _) | .ok (.enca _) | .ok (.decr _) | .ok (.wrs _) | .ok (.rd _) | .ok (.wseq _) | .ok (.wtbl _)
  | .ok (.wtbls _) | .error _ => 1

/-- The latched command is one of the two that settle (R147, R148). -/
def settlingCommand (w : DWord) : Prop := ∃ f, decode w = .ok (.wtbls f) ∨ decode w = .ok (.wall f)

/-- The invariant of the machine. -/
structure State.Inv (s : State) : Prop where
  /-- The memories are in canonical form and list no index beyond their size (R34 to R37). -/
  tmemWf : Mem.wf s.tmem
  tdescWf : Mem.wf s.tdesc
  seqWf : Mem.wf s.seqbuf
  tmemIn : ∀ e ∈ s.tmem, e.1 < s.params.tmemEntries
  tdescIn : ∀ e ∈ s.tdesc, e.1 < s.params.tdescEntries
  seqIn : ∀ e ∈ s.seqbuf, e.1 < s.params.seqMax
  /-- A request is outstanding exactly while the engine waits for the bus, and it is the newest event of
  the history (R38, R63). -/
  reqIff : s.req.isSome = true ↔ s.eng = .waitBus
  reqNewest : ∀ q, s.req = some q → ∃ es, s.trace = .txn q none :: es
  /-- A settle wait in progress is the newest event, began in the past, and shows its tier
  (R38, R144, R145); only `WTBLS` and `WALL` settle (R197). -/
  settleNewest : s.eng = .settle → ∃ es, s.trace = .settle s.settleMs s.settleT0 none :: es
  settleBegan : s.eng = .settle → s.settleT0 ≤ s.now
  settleTier : s.eng = .settle → s.tier = decide (20 < s.settleMs.toNat)
  settleCommand : s.eng.inSettle → settlingCommand s.lcmd
  /-- `ERR` is 0 while `BUSY = 1` and never holds a code the CPB does not raise (R24, R171). -/
  errBusy : isBusy s = true → s.err = .ok
  errProducible : s.err.producible = true
  pendProducible : s.pend.producible = true
  /-- `PROGRESS` shows the counts the cursor has passed, in every state (R41; logs 8, 19); both are 0 at a
  launch (R40). -/
  startClean : s.eng = .exec .start → s.cur = { tbl := 0, ent := 0 } ∧ s.entDone = 0#16 ∧ s.tblDone = 0#16
  entCursor : s.entDone.toNat = s.cur.ent
  tblCursor : s.tblDone.toNat = s.cur.tbl
  /-- While an entry is being applied the cursor is on an entry of the table, and until its table is
  completed it is on a table of the list, which is table 0 for all but `WALL` (R41). -/
  entInTable : s.eng.onBus → s.cur.ent < tableEntries s.lcmd s.desc
  tblInList : s.eng.onBus ∨ s.eng.inSettle → s.cur.tbl < listTables s.lcmd
  /-- Every event of the history is lawful (R121, R145). -/
  eventsLawful : ∀ e ∈ s.trace, e.lawful s.params

/-- The number of transactions of a history. -/
def countTxn : List Event → Nat
  | [] => 0
  | .txn _ _ :: es => countTxn es + 1
  | .settle _ _ _ :: es => countTxn es

/-- A turn that writes the register at `offset`. -/
def Turn.writesReg (t : Turn) (offset : Nat) : Prop := ∃ v, t = .host (.writeReg offset v)

/-- The turns that come next: the head of the agenda, or the engine's. -/
def State.turn (s : State) : Turn := s.agenda.headD .engine

/-- The write frame of a `TMEM` element (30_encoding.md R79). -/
def entryFrame (aw dw : WidthCode) (e : Word) : List Byte :=
  (encodeWrite aw (entryAddr e) dw (entryValue e)).getD []

/-- The event of one entry's write to device `dev`, answered `r`. -/
def entryEvent (dev : BitVec 7) (aw dw : WidthCode) (r : Response) (e : Word) : Event :=
  .txn { dev := dev, wbytes := entryFrame aw dw e, rlen := 0 } (some r)

/-- The turns that answer `n` writes with success, each followed by the engine's turn. -/
def okTurns : Nat → List Turn
  | 0 => []
  | n + 1 => .transport (.ok []) :: .engine :: okTurns n

/-- Consecutive elements of a memory from index `k` on hold `es`. -/
def holdsFrom {α : Type} (m : Mem α) (k : Nat) (es : List α) : Prop :=
  ∀ j (h : j < es.length), memRead m (k + j) = some es[j]

/-- One table of a list as a run meets it: its descriptor, its entries, how long its settle wait lasts
(µs). -/
structure TableRun where
  d : DWord
  es : List Word
  dt : Nat
  deriving DecidableEq, Repr

/-- The table can be applied in `s` and its wait is long enough (R143, R145). -/
def TableRun.fits (s : State) (r : TableRun) : Prop :=
  (descDw r.d = 1#2 ∨ descDw r.d = 2#2) ∧
  (descBase r.d).toNat + (descCount r.d).toNat ≤ s.params.tmemEntries ∧
  r.es.length = (descCount r.d).toNat ∧
  holdsFrom s.tmem (descBase r.d).toNat r.es ∧
  (r.es = [] → s.params.emptyTable = .ok) ∧
  (descDelay r.d).toNat * 1000 ≤ r.dt

/-- The turns of one table once the engine has started it: its writes answered with success, the wait,
the end of the wait, and the engine's turn after it. -/
def TableRun.turns (r : TableRun) : List Turn :=
  okTurns r.es.length ++ [.time r.dt, .engine, .engine]

/-- The turns of a list of tables. -/
def tablesTurns (rs : List TableRun) : List Turn := rs.flatMap TableRun.turns

/-- The events of a list of tables applied from time `now` on, in issue order (R64). -/
def tablesEvents (dev : BitVec 7) (aw : WidthCode) (now : Nat) : List TableRun → List Event
  | [] => []
  | r :: rs =>
    r.es.map (entryEvent dev aw (descDw r.d) (.ok [])) ++
      .settle (descDelay r.d) now (some (.over (now + r.dt))) :: tablesEvents dev aw (now + r.dt) rs

/-- How many entries a list of tables writes. -/
def tablesEntries (rs : List TableRun) : Nat := (rs.map (fun r => r.es.length)).sum

/-- How long the settle waits of a list of tables last (µs). -/
def tablesTime (rs : List TableRun) : Nat := (rs.map TableRun.dt).sum

/-- A run of `n` steps from `s` that never stops: the engine never needs an element nothing has written
(70_reset_and_hazards.md R194). -/
def safeRun (n : Nat) (s : State) : Prop := ∃ t : State, Host.Core.run Sys2Proof.core n s = .next t

end Sys2Proof.Machine
end

