-- ==== Sys2Proof/Certificates/Slice0/Obligations.lean ====
section
/-! DEFINITION. The statements for the provers, each a rule of spec/ about the model. -/

open Sys2Proof
open Sys2Proof.Machine

/-! ### Encoding (30_encoding.md) -/

/-- Decoding the word of any command, with every field at every value, gives the command back
(R71, R75, R78). -/
def Obligations.DecodeOfEncodeIsCommand : Prop :=
  ∀ i : Instr, decode (encode i) = .ok i

/-- Each word has one meaning: a word that decodes to a command is that command's word, so no bit of it
is dropped (R71, R78). -/
def Obligations.EncodeOfDecodedIsWord : Prop :=
  ∀ (w : DWord) (i : Instr), decode w = .ok i → encode i = w

/-- R75, R76, R78: decoding is total and by `OP` alone, and the fields stand at the positions of R71. -/
def Obligations.DecodeByOpcodeAlone : Prop :=
  ∀ w : DWord,
    ∃ f : Fields,
      f.aw = w.extractLsb' 4 2 ∧ f.dw = w.extractLsb' 6 2 ∧ f.rsv0 = w.extractLsb' 8 8 ∧
      f.opa = w.extractLsb' 16 16 ∧ f.opb = w.extractLsb' 32 16 ∧ f.rsv1 = w.extractLsb' 48 16 ∧
      (w.extractLsb' 0 4 = 1#4 → decode w = .ok (.encw f)) ∧
      (w.extractLsb' 0 4 = 2#4 → decode w = .ok (.enca f)) ∧
      (w.extractLsb' 0 4 = 3#4 → decode w = .ok (.decr f)) ∧
      (w.extractLsb' 0 4 = 4#4 → decode w = .ok (.wrs f)) ∧
      (w.extractLsb' 0 4 = 5#4 → decode w = .ok (.rd f)) ∧
      (w.extractLsb' 0 4 = 6#4 → decode w = .ok (.wseq f)) ∧
      (w.extractLsb' 0 4 = 7#4 → decode w = .ok (.wtbl f)) ∧
      (w.extractLsb' 0 4 = 8#4 → decode w = .ok (.wtbls f)) ∧
      (w.extractLsb' 0 4 = 9#4 → decode w = .ok (.wall f)) ∧
      (w.extractLsb' 0 4 = 0#4 ∨ 9#4 < w.extractLsb' 0 4 →
        decode w = .error (.reservedOpcode (w.extractLsb' 0 4)))

/-- R86: the worked encodings, as the words the assembler emits and the commands they decode to. -/
def Obligations.WorkedEncodings : Prop :=
  assemble (.encw 2 2 0x0340 0x04E2) = 0x000004E2034000A1 ∧
  assemble (.encw 1 1 0x1234 0xABCD) = 0x0000ABCD12340051 ∧
  assemble (.enca 2 0x0016) = 0x0000000000160022 ∧
  assemble (.decr 2) = 0x0000000000000083 ∧
  assemble (.wrs 2 1 0x0100 0x01) = 0x0000000101000064 ∧
  assemble (.rd 2 2 0x0000) = 0x00000000000000A5 ∧
  assemble (.wseq 2 0x3E00 3) = 0x000000033E000026 ∧
  assemble (.wtbl 2 1 0 5) = 0x0000000500000067 ∧
  assemble (.wtbls 2 0) = 0x0000000000000028 ∧
  assemble (.wall 2 0 2) = 0x0000000200000029 ∧
  assemble (.encw 0 1 0x0010 0x0020) = 0x0000002000100041 ∧
  decode 0x0000000101000064 = .ok (.wrs ⟨2, 1, 0, 0x0100, 0x0001, 0⟩) ∧
  decode 0x000000033E000026 = .ok (.wseq ⟨2, 0, 0, 0x3E00, 0x0003, 0⟩) ∧
  decode 0x0000000200000029 = .ok (.wall ⟨2, 0, 0, 0x0000, 0x0002, 0⟩)

/-! ### A step runs the decoded command -/

/-- When the latched command decodes to `i` and the engine executes, a step is exec of `i`: on the state
itself when the agenda is empty, on the state less the engine's turn when that turn is next. The agenda
is the model's choice (log 1). -/
def Obligations.StepRunsDecodedCommand : Prop :=
  ∀ (s : State) (r : Resume) (i : Instr), s.eng = .exec r → decode s.lcmd = .ok i →
    (s.agenda = [] → step s = exec i s) ∧
    (∀ rest, s.agenda = .engine :: rest → step s = exec i { s with agenda := rest })

/-- The host's fetch of a word is the launch of R40 with the engine to move next: the very next step
runs exactly that command, from its start, in the state the launch leaves. That withFetchWord stands for
the launch is the model's choice (log 11). -/
def Obligations.FetchedWordRunsNext : Prop :=
  ∀ (s : State) (w : Nat) (i : Instr), decode (BitVec.ofNat 64 w) = .ok i →
    step (s.withFetchWord 64 w) =
      exec i { s with
        cmdLo := (BitVec.ofNat 64 w).extractLsb' 0 32
        cmdHi := (BitVec.ofNat 64 w).extractLsb' 32 32
        lcmd := BitVec.ofNat 64 w
        err := .ok
        entDone := 0#16
        tblDone := 0#16
        cur := ⟨0, 0⟩
        req := none
        eng := .exec .start }

/-! ### Codec functions (40_codec.md) -/

/-- R79, R101, R103: the address frame for every width code, the four layouts of a write frame, and
`InvalidWidth` for every illegal width. -/
def Obligations.FrameLayouts : Prop :=
  ∀ (aw dw : WidthCode) (a d : Half),
    (aw = 1#2 → encodeAddress aw a = some [a.extractLsb' 0 8]) ∧
    (aw = 2#2 → encodeAddress aw a = some [a.extractLsb' 8 8, a.extractLsb' 0 8]) ∧
    (aw = 0#2 ∨ aw = 3#2 → encodeAddress aw a = none) ∧
    (aw = 1#2 ∧ dw = 1#2 → encodeWrite aw a dw d = some [a.extractLsb' 0 8, d.extractLsb' 0 8]) ∧
    (aw = 1#2 ∧ dw = 2#2 →
      encodeWrite aw a dw d = some [a.extractLsb' 0 8, d.extractLsb' 8 8, d.extractLsb' 0 8]) ∧
    (aw = 2#2 ∧ dw = 1#2 →
      encodeWrite aw a dw d = some [a.extractLsb' 8 8, a.extractLsb' 0 8, d.extractLsb' 0 8]) ∧
    (aw = 2#2 ∧ dw = 2#2 →
      encodeWrite aw a dw d =
        some [a.extractLsb' 8 8, a.extractLsb' 0 8, d.extractLsb' 8 8, d.extractLsb' 0 8]) ∧
    (aw = 0#2 ∨ aw = 3#2 ∨ dw = 0#2 ∨ dw = 3#2 → encodeWrite aw a dw d = none)

/-- R105: read-back bytes decode big-endian, and only when their number is exactly the width's. -/
def Obligations.DecodeReadExactLength : Prop :=
  ∀ (dw : WidthCode) (bytes : List Byte),
    (∀ b0, dw = 1#2 → bytes = [b0] → decodeRead dw bytes = some (b0.setWidth 16)) ∧
    (∀ b0 b1, dw = 2#2 → bytes = [b0, b1] → decodeRead dw bytes = some (b0 ++ b1)) ∧
    (¬ (dw = 1#2 ∧ bytes.length = 1) ∧ ¬ (dw = 2#2 ∧ bytes.length = 2) → decodeRead dw bytes = none)

/-- R107: a value encoded at a legal width decodes to itself, truncated to the width. -/
def Obligations.DataRoundTrip : Prop :=
  ∀ d : Half,
    (encodeData 2#2 d).bind (decodeRead 2#2) = some d ∧
    (encodeData 1#2 d).bind (decodeRead 1#2) = some ((d.extractLsb' 0 8).setWidth 16)

/-- R108: packing at most four bytes puts byte `k` at bits `8k+7:8k`, 0 in the bytes of `FRAME` at and
above the length, and the length in `LEN`; unpacking gives `LEN` bytes from the same places, and nothing
when `LEN` names more bytes than `FRAME` holds; unpacking what was packed gives it back. -/
def Obligations.FramePacking : Prop :=
  (∀ bytes : List Byte, bytes.length ≤ 4 →
    (packFrame bytes).2.toNat = bytes.length ∧
    (∀ k, k < 4 → (packFrame bytes).1.extractLsb' (8 * k) 8 = bytes.getD k 0#8) ∧
    unpackFrame (packFrame bytes).1 (packFrame bytes).2 = some bytes) ∧
  (∀ (frame : Word) (len : BitVec 3),
    (len.toNat ≤ 4 → ∃ bytes, unpackFrame frame len = some bytes ∧ bytes.length = len.toNat ∧
      ∀ k, k < len.toNat → bytes.getD k 0#8 = frame.extractLsb' (8 * k) 8) ∧
    (4 < len.toNat → unpackFrame frame len = none))

/-! ### Codec commands -/

/-- R111: `ENCW` in every state and for every operand, and nothing else changes. -/
def Obligations.EncwResult : Prop :=
  ∀ (f : Fields) (s : State),
    exec (.encw f) s = .next
      (if f.rsv0 ≠ 0#8 ∨ f.rsv1 ≠ 0#16 then { s with err := .invalidArgument, eng := .idle }
       else
        match encodeWrite f.aw f.opa f.dw f.opb with
        | none => { s with err := .invalidWidth, eng := .idle }
        | some bytes =>
          { s with
            frame := (packFrame bytes).1
            frameLen := BitVec.ofNat 3 bytes.length
            err := .ok
            eng := .idle })

/-- R112: `ENCA` in every state and for every operand, and nothing else changes. -/
def Obligations.EncaResult : Prop :=
  ∀ (f : Fields) (s : State),
    exec (.enca f) s = .next
      (if f.rsv0 ≠ 0#8 ∨ f.rsv1 ≠ 0#16 then { s with err := .invalidArgument, eng := .idle }
       else
        match encodeAddress f.aw f.opa with
        | none => { s with err := .invalidWidth, eng := .idle }
        | some bytes =>
          { s with
            frame := (packFrame bytes).1
            frameLen := BitVec.ofNat 3 bytes.length
            err := .ok
            eng := .idle })

/-- R113: `DECR` in every state and for every operand: it decodes byte 0, or bytes 0 and 1, of `FRAME`
when `LEN` is exactly the width's byte count, and nothing else changes. -/
def Obligations.DecrResult : Prop :=
  ∀ (f : Fields) (s : State),
    exec (.decr f) s = .next
      (if f.rsv0 ≠ 0#8 ∨ f.rsv1 ≠ 0#16 then { s with err := .invalidArgument, eng := .idle }
       else if f.dw = 1#2 ∧ s.frameLen = 1#3 then
        { s with rdata := (s.frame.extractLsb' 0 8).setWidth 16, err := .ok, eng := .idle }
       else if f.dw = 2#2 ∧ s.frameLen = 2#3 then
        { s with
          rdata := s.frame.extractLsb' 0 8 ++ s.frame.extractLsb' 8 8
          err := .ok
          eng := .idle }
       else { s with err := .invalidWidth, eng := .idle })

/-- The frame of `ENCW`, `ENCA` and `DECR`: no memory element, no register but their results, nothing of
the bus and nothing of the player changes. -/
def Obligations.CodecCommandFrame : Prop :=
  ∀ (f : Fields) (i : Instr) (s t : State), i = .encw f ∨ i = .enca f ∨ i = .decr f →
    exec i s = .next t →
    (∀ a, memRead t.tmem a = memRead s.tmem a) ∧ (∀ a, memRead t.tdesc a = memRead s.tdesc a) ∧
    (∀ a, memRead t.seqbuf a = memRead s.seqbuf a) ∧
    t.cmdLo = s.cmdLo ∧ t.cmdHi = s.cmdHi ∧ t.devAddr = s.devAddr ∧ t.tier = s.tier ∧ t.ovr = s.ovr ∧
    t.entDone = s.entDone ∧ t.tblDone = s.tblDone ∧ t.txnCount = s.txnCount ∧ t.req = s.req ∧
    t.trace = s.trace ∧ t.now = s.now ∧
    (i = .decr f → t.frame = s.frame ∧ t.frameLen = s.frameLen) ∧
    (i ≠ .decr f → t.rdata = s.rdata) ∧
    (t.err ≠ .ok → t.frame = s.frame ∧ t.frameLen = s.frameLen ∧ t.rdata = s.rdata)

/-! ### Single-transaction commands (41_bus_transactions.md) -/

/-- R130 from its start: `WRS` makes its checks and issues one write of the frame to
`CLIENT.DEV_ADDR`. -/
def Obligations.WrsIssuesOneWrite : Prop :=
  ∀ (f : Fields) (s : State), s.eng = .exec .start →
    exec (.wrs f) s = .next
      (if f.rsv0 ≠ 0#8 ∨ f.rsv1 ≠ 0#16 then { s with err := .invalidArgument, eng := .idle }
       else
        match encodeWrite f.aw f.opa f.dw f.opb with
        | none => { s with err := .invalidWidth, eng := .idle }
        | some bytes =>
          { s with
            req := some ⟨s.devAddr, bytes, 0⟩
            txnCount := s.txnCount + 1#32
            eng := .waitBus
            trace := .txn ⟨s.devAddr, bytes, 0⟩ none :: s.trace })

/-- R130, R132 after the answer: a failed write transaction completes with TransportFailure, a
successful one with Ok, and nothing else changes. -/
def Obligations.WriteCommandsComplete : Prop :=
  ∀ (f : Fields) (s : State) (v : Response), s.eng = .exec (.answered v) →
    (v = .fail → exec (.wrs f) s = .next { s with err := .transportFailure, eng := .idle } ∧
      exec (.wseq f) s = .next { s with err := .transportFailure, eng := .idle }) ∧
    (∀ rb, v = .ok rb → exec (.wrs f) s = .next { s with err := .ok, eng := .idle } ∧
      exec (.wseq f) s = .next { s with err := .ok, eng := .idle })

/-- R131 from its start: `RD` checks both widths and issues one combined transaction: the address bytes,
then a read of the data width's byte count. -/
def Obligations.RdIssuesCombinedRead : Prop :=
  ∀ (f : Fields) (s : State), s.eng = .exec .start →
    exec (.rd f) s = .next
      (if f.rsv0 ≠ 0#8 ∨ f.rsv1 ≠ 0#16 then { s with err := .invalidArgument, eng := .idle }
       else if (f.aw = 1#2 ∨ f.aw = 2#2) ∧ (f.dw = 1#2 ∨ f.dw = 2#2) then
        let q : Request := ⟨s.devAddr, (encodeAddress f.aw f.opa).getD [], f.dw.toNat⟩
        { s with
          req := some q
          txnCount := s.txnCount + 1#32
          eng := .waitBus
          trace := .txn q none :: s.trace }
       else { s with err := .invalidWidth, eng := .idle })

/-- R131 after the answer: the bytes read become `RDATA`, big-endian, and nothing else changes; a failed
transaction completes with TransportFailure and leaves `RDATA`. -/
def Obligations.RdCompletes : Prop :=
  ∀ (f : Fields) (s : State) (v : Response), s.eng = .exec (.answered v) →
    (v = .fail → exec (.rd f) s = .next { s with err := .transportFailure, eng := .idle }) ∧
    (∀ b, v = .ok [b] → f.dw = 1#2 →
      exec (.rd f) s = .next { s with rdata := b.setWidth 16, err := .ok, eng := .idle }) ∧
    (∀ b0 b1, v = .ok [b0, b1] → f.dw = 2#2 →
      exec (.rd f) s = .next { s with rdata := b0 ++ b1, err := .ok, eng := .idle })

/-- R132 from its start: the checks of `WSEQ` in their order, and the one write of the address bytes and
the raw bytes of `SEQBUF`. A byte the burst needs that nothing has written since reset stops the model
(R194), at the first such byte. -/
def Obligations.WseqIssuesBurst : Prop :=
  ∀ (f : Fields) (s : State), s.eng = .exec .start →
    (f.rsv0 ≠ 0#8 ∨ f.rsv1 ≠ 0#16 →
      exec (.wseq f) s = .next { s with err := .invalidArgument, eng := .idle }) ∧
    (f.rsv0 = 0#8 → f.rsv1 = 0#16 →
      (f.aw = 0#2 ∨ f.aw = 3#2 → exec (.wseq f) s = .next { s with err := .invalidWidth, eng := .idle }) ∧
      (f.aw = 1#2 ∨ f.aw = 2#2 →
        (f.opb = 0#16 ∨ s.params.seqMax < f.opb.toNat →
          exec (.wseq f) s = .next { s with err := .invalidArgument, eng := .idle }) ∧
        (f.opb ≠ 0#16 → f.opb.toNat ≤ s.params.seqMax →
          (∀ data : List Byte, data.length = f.opb.toNat → holdsFrom s.seqbuf 0 data →
            let q : Request := ⟨s.devAddr, (encodeAddress f.aw f.opa).getD [] ++ data, 0⟩
            exec (.wseq f) s = .next
              { s with
                req := some q
                txnCount := s.txnCount + 1#32
                eng := .waitBus
                trace := .txn q none :: s.trace }) ∧
          (∀ j, j < f.opb.toNat → memRead s.seqbuf j = none →
            (∀ k, k < j → memRead s.seqbuf k ≠ none) →
            exec (.wseq f) s = .fault (.unwrittenSeq j)))))

/-- R120: `Transact` issues a request to `CLIENT.DEV_ADDR`, counts it modulo 2^32, waits, and records the
event; the answer ends the wait, and it is `Fail` when the transport says so or returns a number of bytes
other than asked; its outcome is recorded on the event. That the outcome recorded is the answer as
delivered is the model's reading (log 3). -/
def Obligations.TransactIssuesAndJudges : Prop :=
  (∀ (s : State) (wbytes : List Byte) (rlen : Nat),
    s.transact wbytes rlen =
      { s with
        req := some ⟨s.devAddr, wbytes, rlen⟩
        txnCount := s.txnCount + 1#32
        eng := .waitBus
        trace := .txn ⟨s.devAddr, wbytes, rlen⟩ none :: s.trace }) ∧
  (∀ (s : State) (q : Request) (r : Response) (rest : List Turn) (es : List Event),
    s.agenda = .transport r :: rest → s.eng = .waitBus → s.req = some q → s.trace = .txn q none :: es →
    step s = .next
      { s with
        agenda := rest
        req := none
        eng := .exec (.answered
          (match r with
           | .fail => .fail
           | .ok rb => if rb.length = q.rlen then .ok rb else .fail))
        trace := .txn q (some r) :: es })

/-- R125: while no answer arrives the engine stays in `WAIT_BUS`, with the request, the counter and the
history as they are; only an answer or the reset input ends the wait. -/
def Obligations.WaitsForTheTransport : Prop :=
  ∀ s : State, s.eng = .waitBus → (∀ r, s.turn ≠ .transport r) → s.turn ≠ .reset →
    ∃ t, step s = .next t ∧ t.eng = .waitBus ∧ isBusy t = true ∧ t.req = s.req ∧
      t.txnCount = s.txnCount ∧ t.trace = s.trace

/-- The frame of `WRS`, `RD` and `WSEQ`: `FRAME`, `FRAME_LEN`, `PROGRESS`, the tier and every memory
element are unchanged; `RDATA` changes only in a successful `RD`. -/
def Obligations.BusCommandFrame : Prop :=
  ∀ (f : Fields) (i : Instr) (s t : State), i = .wrs f ∨ i = .rd f ∨ i = .wseq f →
    exec i s = .next t →
    (∀ a, memRead t.tmem a = memRead s.tmem a) ∧ (∀ a, memRead t.tdesc a = memRead s.tdesc a) ∧
    (∀ a, memRead t.seqbuf a = memRead s.seqbuf a) ∧
    t.cmdLo = s.cmdLo ∧ t.cmdHi = s.cmdHi ∧ t.devAddr = s.devAddr ∧ t.tier = s.tier ∧ t.ovr = s.ovr ∧
    t.frame = s.frame ∧ t.frameLen = s.frameLen ∧ t.entDone = s.entDone ∧ t.tblDone = s.tblDone ∧
    t.now = s.now ∧
    (t.rdata = s.rdata ∨ (i = .rd f ∧ t.err = .ok ∧ t.eng = .idle))

/-! ### The player (42_table_player.md) -/

/-- R146, R141 from its start: the checks of `WTBL` in their order, the empty table, and the first
entry's write. -/
def Obligations.WtblStarts : Prop :=
  ∀ (f : Fields) (s : State), s.eng = .exec .start →
    exec (.wtbl f) s =
      if f.rsv0 ≠ 0#8 ∨ f.rsv1 ≠ 0#16 then .next { s with err := .invalidArgument, eng := .idle }
      else if (f.aw = 0#2 ∨ f.aw = 3#2) ∨ f.dw = 0#2 ∨ f.dw = 3#2 then
        .next { s with err := .invalidWidth, eng := .idle }
      else if s.params.tmemEntries < f.opa.toNat + f.opb.toNat then
        .next { s with err := .invalidArgument, eng := .idle }
      else if f.opb = 0#16 then
        .next { s with
          err := match s.params.emptyTable with
            | .ok => .ok
            | .invalidArgument => .invalidArgument
          eng := .idle }
      else
        match memRead s.tmem f.opa.toNat with
        | none => .fault (.unwrittenTmem f.opa.toNat)
        | some e =>
          .next { s with
            cur := ⟨s.cur.tbl, 0⟩
            req := some ⟨s.devAddr, entryFrame f.aw f.dw e, 0⟩
            txnCount := s.txnCount + 1#32
            eng := .waitBus
            trace := .txn ⟨s.devAddr, entryFrame f.aw f.dw e, 0⟩ none :: s.trace }

/-- R141, R146 after an answer: a failure ends `WTBL` with TransportFailure; a success counts the entry
(the cursor and `ENT_DONE` advance, R21, R41) and issues the next one, or completes after the last. That
the cursor passes the last entry too is the model's reading (log 19). -/
def Obligations.WtblContinues : Prop :=
  ∀ (f : Fields) (s : State) (v : Response), s.eng = .exec (.answered v) →
    (f.aw = 1#2 ∨ f.aw = 2#2) → (f.dw = 1#2 ∨ f.dw = 2#2) →
    exec (.wtbl f) s =
      match v with
      | .fail => .next { s with err := .transportFailure, eng := .idle }
      | .ok _ =>
        if s.cur.ent + 1 < f.opb.toNat then
          match memRead s.tmem (f.opa.toNat + (s.cur.ent + 1)) with
          | none => .fault (.unwrittenTmem (f.opa.toNat + (s.cur.ent + 1)))
          | some e =>
            .next { s with
              entDone := BitVec.ofNat 16 (s.cur.ent + 1)
              cur := ⟨s.cur.tbl, s.cur.ent + 1⟩
              req := some ⟨s.devAddr, entryFrame f.aw f.dw e, 0⟩
              txnCount := s.txnCount + 1#32
              eng := .waitBus
              trace := .txn ⟨s.devAddr, entryFrame f.aw f.dw e, 0⟩ none :: s.trace }
        else
          .next { s with
            entDone := BitVec.ofNat 16 (s.cur.ent + 1)
            cur := ⟨s.cur.tbl, s.cur.ent + 1⟩
            err := .ok
            eng := .idle }

/-- R143: `PlayTable` up to where it blocks, for the table of list index `j` with descriptor `d`: the
width, then the range, then the emptiness, then the first entry. A table that ends here takes the result
to the end of `PlayTable` (endTable). -/
def Obligations.PlayTableStarts : Prop :=
  ∀ (aw : WidthCode) (j : Nat) (d : DWord) (s : State), aw = 1#2 ∨ aw = 2#2 →
    let t : State := { s with entDone := 0#16, desc := d, cur := ⟨j, 0⟩ }
    startTable aw j d s =
      if descDw d = 0#2 ∨ descDw d = 3#2 then endTable .invalidWidth t
      else if s.params.tmemEntries < (descBase d).toNat + (descCount d).toNat then
        endTable .invalidArgument t
      else if descCount d = 0#16 then
        match s.params.emptyTable with
        | .ok => endTable .ok t
        | .invalidArgument => endTable .invalidArgument t
      else
        match memRead s.tmem (descBase d).toNat with
        | none => .fault (.unwrittenTmem (descBase d).toNat)
        | some e =>
          .next { t with
            cur := ⟨j, 0⟩
            req := some ⟨s.devAddr, entryFrame aw (descDw d) e, 0⟩
            txnCount := s.txnCount + 1#32
            eng := .waitBus
            trace := .txn ⟨s.devAddr, entryFrame aw (descDw d) e, 0⟩ none :: s.trace }

/-- R143, R144, R145: the end of `PlayTable`: the settle wait of `DELAY` milliseconds, in the coarse tier
when it is above 20, always after a success and after a failure only with `SETTLE_AFTER_FAILURE`. -/
def Obligations.PlayTableEnds : Prop :=
  ∀ (r : Result) (s : State),
    endTable r s = .next
      (if r = .ok ∨ s.params.settleAfterFailure = true then
        { s with
          pend := r
          settleMs := descDelay s.desc
          settleT0 := s.now
          tier := decide (20 < (descDelay s.desc).toNat)
          eng := .settle
          trace := .settle (descDelay s.desc) s.now none :: s.trace }
       else { s with pend := r, err := r, eng := .idle })

/-- R147 from its start: the checks of `WTBLS` in their order, then `PlayTable` of `TDESC[k]`. -/
def Obligations.WtblsStarts : Prop :=
  ∀ (f : Fields) (s : State), s.eng = .exec .start →
    exec (.wtbls f) s =
      if f.rsv0 ≠ 0#8 ∨ f.rsv1 ≠ 0#16 then .next { s with err := .invalidArgument, eng := .idle }
      else if f.aw = 0#2 ∨ f.aw = 3#2 then .next { s with err := .invalidWidth, eng := .idle }
      else if s.params.tdescEntries ≤ f.opa.toNat then
        .next { s with err := .invalidArgument, eng := .idle }
      else
        match memRead s.tdesc f.opa.toNat with
        | none => .fault (.unwrittenTdesc f.opa.toNat)
        | some d => startTable f.aw 0 d s

/-- R148 from its start: the checks of `WALL` in their order (the empty list before the range), then
`PlayTable` of the first descriptor. -/
def Obligations.WallStarts : Prop :=
  ∀ (f : Fields) (s : State), s.eng = .exec .start →
    exec (.wall f) s =
      if f.rsv0 ≠ 0#8 ∨ f.rsv1 ≠ 0#16 then .next { s with err := .invalidArgument, eng := .idle }
      else if f.aw = 0#2 ∨ f.aw = 3#2 then .next { s with err := .invalidWidth, eng := .idle }
      else if f.opb = 0#16 then
        .next { s with
          err := match s.params.emptyList with
            | .ok => .ok
            | .invalidArgument => .invalidArgument
          eng := .idle }
      else if s.params.tdescEntries < f.opa.toNat + f.opb.toNat then
        .next { s with err := .invalidArgument, eng := .idle }
      else
        match memRead s.tdesc f.opa.toNat with
        | none => .fault (.unwrittenTdesc f.opa.toNat)
        | some d => startTable f.aw 0 d s

/-- R143 with R141 after an answer, for both `WTBLS` and `WALL`: a failure ends the table, a success
counts the entry (the cursor and `ENT_DONE` advance, R21, R41) and issues the next one of the table, or
ends the table after the last. That the cursor passes the last entry too is the model's reading
(log 19). -/
def Obligations.TableEntryAnswered : Prop :=
  ∀ (f : Fields) (s : State) (v : Response) (i : Instr), i = .wtbls f ∨ i = .wall f →
    s.eng = .exec (.answered v) → (f.aw = 1#2 ∨ f.aw = 2#2) →
    (descDw s.desc = 1#2 ∨ descDw s.desc = 2#2) →
    exec i s =
      match v with
      | .fail => endTable .transportFailure s
      | .ok _ =>
        if s.cur.ent + 1 < (descCount s.desc).toNat then
          match memRead s.tmem ((descBase s.desc).toNat + (s.cur.ent + 1)) with
          | none => .fault (.unwrittenTmem ((descBase s.desc).toNat + (s.cur.ent + 1)))
          | some e =>
            .next { s with
              entDone := BitVec.ofNat 16 (s.cur.ent + 1)
              cur := ⟨s.cur.tbl, s.cur.ent + 1⟩
              req := some ⟨s.devAddr, entryFrame f.aw (descDw s.desc) e, 0⟩
              txnCount := s.txnCount + 1#32
              eng := .waitBus
              trace := .txn ⟨s.devAddr, entryFrame f.aw (descDw s.desc) e, 0⟩ none :: s.trace }
        else
          endTable .ok { s with
            entDone := BitVec.ofNat 16 (s.cur.ent + 1)
            cur := ⟨s.cur.tbl, s.cur.ent + 1⟩ }

/-- R147 after the settle wait: `WTBLS` completes, with `TBL_DONE = 1` and the cursor past its table when
the table succeeded (R21, R41; that the cursor of `WTBLS` passes its table is the model's reading,
log 19). -/
def Obligations.WtblsCompletes : Prop :=
  ∀ (f : Fields) (s : State), s.eng = .exec .settled →
    exec (.wtbls f) s = .next
      (if s.pend = .ok then
        { s with tblDone := 1#16, cur := ⟨1, s.cur.ent⟩, err := .ok, eng := .idle }
       else { s with err := s.pend, eng := .idle })

/-- R148 after the settle wait of table `j = CUR.tbl`: a failed table ends `WALL` with its result; after a
success `TBL_DONE = j + 1`, the cursor advances by one table (R21, R41), and the next table starts, or
`WALL` completes after the last. That the cursor passes the last table too is the model's reading
(log 19). -/
def Obligations.WallContinues : Prop :=
  ∀ (f : Fields) (s : State), s.eng = .exec .settled →
    exec (.wall f) s =
      if s.pend ≠ .ok then .next { s with err := s.pend, eng := .idle }
      else if s.cur.tbl + 1 < f.opb.toNat then
        match memRead s.tdesc (f.opa.toNat + (s.cur.tbl + 1)) with
        | none => .fault (.unwrittenTdesc (f.opa.toNat + (s.cur.tbl + 1)))
        | some d =>
          startTable f.aw (s.cur.tbl + 1) d { s with
            tblDone := BitVec.ofNat 16 (s.cur.tbl + 1)
            cur := ⟨s.cur.tbl + 1, s.cur.ent⟩ }
      else
        .next { s with
          tblDone := BitVec.ofNat 16 (s.cur.tbl + 1)
          cur := ⟨s.cur.tbl + 1, s.cur.ent⟩
          err := .ok
          eng := .idle }

/-- R145: `SettleAtLeast(ms)` records its length, its start and its tier and begins the wait; the engine
leaves it on its own turn, exactly when at least `ms` milliseconds have passed; the wait is not
cancellable: nothing but that turn and the reset input ends it. That the end is a step of its own, and how
the history records it, is the model's reading (logs 17, 20). -/
def Obligations.SettleWaitsAtLeast : Prop :=
  (∀ (s : State) (ms : Half),
    s.startSettle ms =
      { s with
        settleMs := ms
        settleT0 := s.now
        tier := decide (20 < ms.toNat)
        eng := .settle
        trace := .settle ms s.now none :: s.trace }) ∧
  (∀ (s : State) (es : List Event), s.eng = .settle →
    s.trace = .settle s.settleMs s.settleT0 none :: es → s.turn = .engine →
    step s = .next
      (if s.settleMs.toNat * 1000 ≤ s.now - s.settleT0 then
        { s with
          agenda := s.agenda.tail
          eng := .exec .settled
          trace := .settle s.settleMs s.settleT0 (some (.over s.now)) :: es }
       else { s with agenda := s.agenda.tail })) ∧
  (∀ s : State, s.eng = .settle → s.turn ≠ .engine → s.turn ≠ .reset →
    ∃ t, step s = .next t ∧ t.eng = .settle ∧ isBusy t = true ∧ t.settleMs = s.settleMs ∧
      t.settleT0 = s.settleT0 ∧ t.tier = s.tier ∧ t.trace = s.trace)

/-- The frame of `WTBL`, `WTBLS` and `WALL`: `RDATA`, `FRAME`, `FRAME_LEN` and every memory element are
unchanged. -/
def Obligations.TableCommandFrame : Prop :=
  ∀ (f : Fields) (i : Instr) (s t : State), i = .wtbl f ∨ i = .wtbls f ∨ i = .wall f →
    exec i s = .next t →
    (∀ a, memRead t.tmem a = memRead s.tmem a) ∧ (∀ a, memRead t.tdesc a = memRead s.tdesc a) ∧
    (∀ a, memRead t.seqbuf a = memRead s.seqbuf a) ∧
    t.cmdLo = s.cmdLo ∧ t.cmdHi = s.cmdHi ∧ t.devAddr = s.devAddr ∧ t.ovr = s.ovr ∧
    t.rdata = s.rdata ∧ t.frame = s.frame ∧ t.frameLen = s.frameLen ∧ t.now = s.now ∧
    (t.tier = s.tier ∨ t.eng = .settle) ∧ (i = .wtbl f → t.tblDone = s.tblDone ∧ t.tier = s.tier)

/-! ### Whole commands -/

/-- R120, R123, R124, R130: the host launches `WRS`, the transport answers `r`. One write is issued; the
command ends with Ok exactly when the answer is `Ok([])`, and with TransportFailure otherwise, not
retried; nothing else changes. That the outcome recorded is the answer as delivered is the model's
reading (log 3). -/
def Obligations.WrsWholeCommand : Prop :=
  ∀ (s : State) (hi : Word) (f : Fields) (bytes : List Byte) (r : Response) (rest : List Turn),
    s.eng = .idle → decode (hi ++ s.cmdLo) = .ok (.wrs f) → (Instr.wrs f).wellFormed = true →
    encodeWrite f.aw f.opa f.dw f.opb = some bytes →
    s.agenda = .host (.writeReg 0x04 hi) :: .engine :: .transport r :: .engine :: rest →
    Host.Core.run Sys2Proof.core 4 s = .next
      { s with
        cmdHi := hi
        lcmd := hi ++ s.cmdLo
        err := if r = .ok [] then .ok else .transportFailure
        entDone := 0#16
        tblDone := 0#16
        cur := ⟨0, 0⟩
        req := none
        txnCount := s.txnCount + 1#32
        trace := .txn ⟨s.devAddr, bytes, 0⟩ (some r) :: s.trace
        agenda := rest }

/-- R120, R123, R124, R131: the host launches `RD`, the transport answers `r`. One combined transaction
is issued; `RDATA` takes the bytes read, big-endian, when their number is the data width's, and
otherwise the command ends with TransportFailure and leaves `RDATA`; nothing else changes. That the
outcome recorded is the answer as delivered is the model's reading (log 3). -/
def Obligations.RdWholeCommand : Prop :=
  ∀ (s : State) (hi : Word) (f : Fields) (bytes : List Byte) (r : Response) (rest : List Turn),
    s.eng = .idle → decode (hi ++ s.cmdLo) = .ok (.rd f) → (Instr.rd f).wellFormed = true →
    encodeAddress f.aw f.opa = some bytes →
    s.agenda = .host (.writeReg 0x04 hi) :: .engine :: .transport r :: .engine :: rest →
    Host.Core.run Sys2Proof.core 4 s = .next
      (let t : State :=
        { s with
          cmdHi := hi
          lcmd := hi ++ s.cmdLo
          err := .transportFailure
          entDone := 0#16
          tblDone := 0#16
          cur := ⟨0, 0⟩
          req := none
          txnCount := s.txnCount + 1#32
          trace := .txn ⟨s.devAddr, bytes, f.dw.toNat⟩ (some r) :: s.trace
          agenda := rest }
       match r with
       | .ok [b] => if f.dw = 1#2 then { t with rdata := b.setWidth 16, err := .ok } else t
       | .ok [b0, b1] => if f.dw = 2#2 then { t with rdata := b0 ++ b1, err := .ok } else t
       | _ => t)

/-- R120, R123, R124, R132: the host launches `WSEQ` over `n` written bytes of `SEQBUF`, the transport
answers `r`. One write of the address bytes and the `n` raw bytes is issued, whatever `n`; the command
ends with Ok exactly when the answer is `Ok([])`; nothing else changes. That the outcome recorded is the
answer as delivered is the model's reading (log 3). -/
def Obligations.WseqWholeCommand : Prop :=
  ∀ (s : State) (hi : Word) (f : Fields) (bytes data : List Byte) (r : Response) (rest : List Turn),
    s.eng = .idle → decode (hi ++ s.cmdLo) = .ok (.wseq f) → (Instr.wseq f).wellFormed = true →
    encodeAddress f.aw f.opa = some bytes → data.length = f.opb.toNat → data ≠ [] →
    f.opb.toNat ≤ s.params.seqMax → holdsFrom s.seqbuf 0 data →
    s.agenda = .host (.writeReg 0x04 hi) :: .engine :: .transport r :: .engine :: rest →
    Host.Core.run Sys2Proof.core 4 s = .next
      { s with
        cmdHi := hi
        lcmd := hi ++ s.cmdLo
        err := if r = .ok [] then .ok else .transportFailure
        entDone := 0#16
        tblDone := 0#16
        cur := ⟨0, 0⟩
        req := none
        txnCount := s.txnCount + 1#32
        trace := .txn ⟨s.devAddr, bytes ++ data, 0⟩ (some r) :: s.trace
        agenda := rest }

/-- R141, R146: the host launches `WTBL` over a table of `n >= 1` entries, all written, and the transport
accepts every write. The command ends with Ok, `ENT_DONE = n`, the cursor past the last entry (R21, R41)
and `n` transactions counted, the history gains one write per entry in index order, and nothing else
changes. That the cursor ends at `n`, where the loop of R141 alone would leave `n - 1`, is the model's
reading (log 19); that the run takes `2n + 2` steps is the model's choice of agenda and of engine steps
(logs 1, 2). -/
def Obligations.WtblAppliesWholeTable : Prop :=
  ∀ (s : State) (hi : Word) (f : Fields) (es : List Word) (rest : List Turn),
    s.eng = .idle → decode (hi ++ s.cmdLo) = .ok (.wtbl f) → (Instr.wtbl f).wellFormed = true →
    f.opa.toNat + f.opb.toNat ≤ s.params.tmemEntries → es.length = f.opb.toNat → es ≠ [] →
    holdsFrom s.tmem f.opa.toNat es →
    s.agenda = .host (.writeReg 0x04 hi) :: .engine :: (okTurns es.length ++ rest) →
    Host.Core.run Sys2Proof.core (2 * es.length + 2) s = .next
      { s with
        cmdHi := hi
        lcmd := hi ++ s.cmdLo
        err := .ok
        entDone := f.opb
        tblDone := 0#16
        cur := ⟨0, es.length⟩
        req := none
        txnCount := s.txnCount + BitVec.ofNat 32 es.length
        trace := (es.map (entryEvent s.devAddr f.aw f.dw (.ok []))).reverse ++ s.trace
        agenda := rest }

/-- R141, R142: the same launch when the transport accepts the first `k` writes and fails the next. The
command ends with TransportFailure, `ENT_DONE = k` and `k + 1` transactions counted; the entries after
the failing one are never attempted and nothing is rolled back. The number of steps is the model's choice
of agenda and of engine steps (logs 1, 2). -/
def Obligations.WtblStopsAtFirstFailure : Prop :=
  ∀ (s : State) (hi : Word) (f : Fields) (es : List Word) (e : Word) (rest : List Turn),
    s.eng = .idle → decode (hi ++ s.cmdLo) = .ok (.wtbl f) → (Instr.wtbl f).wellFormed = true →
    f.opa.toNat + f.opb.toNat ≤ s.params.tmemEntries → es.length < f.opb.toNat →
    holdsFrom s.tmem f.opa.toNat (es ++ [e]) →
    s.agenda = .host (.writeReg 0x04 hi) :: .engine ::
      (okTurns es.length ++ .transport .fail :: .engine :: rest) →
    Host.Core.run Sys2Proof.core (2 * es.length + 4) s = .next
      { s with
        cmdHi := hi
        lcmd := hi ++ s.cmdLo
        err := .transportFailure
        entDone := BitVec.ofNat 16 es.length
        tblDone := 0#16
        cur := ⟨0, es.length⟩
        req := none
        txnCount := s.txnCount + BitVec.ofNat 32 (es.length + 1)
        trace := entryEvent s.devAddr f.aw f.dw .fail e ::
          ((es.map (entryEvent s.devAddr f.aw f.dw (.ok []))).reverse ++ s.trace)
        agenda := rest }

/-- R143, R147: the host launches `WTBLS` on a table that can be applied, the transport accepts every
write, and the wait lasts long enough. The command ends with Ok, `TBL_DONE = 1` and `ENT_DONE` the entry
count, after at least the settle delay; its history (R69) is the table's writes in order and then the
wait. That the cursor ends at table 1 and past the last entry is the model's reading of R21 against R41's
"always 0 for `WTBL` and `WTBLS`" (log 19); that the wait's end is a step of its own, and how the history
records it, is the model's reading too (logs 17, 20), and the number of steps its choice (logs 1, 2). -/
def Obligations.WtblsAppliesTableAndSettles : Prop :=
  ∀ (s : State) (hi : Word) (f : Fields) (r : TableRun) (rest : List Turn),
    s.eng = .idle → decode (hi ++ s.cmdLo) = .ok (.wtbls f) → (Instr.wtbls f).wellFormed = true →
    f.opa.toNat < s.params.tdescEntries → memRead s.tdesc f.opa.toNat = some r.d → r.fits s →
    s.agenda = .host (.writeReg 0x04 hi) :: .engine :: (r.turns ++ rest) →
    ∃ t, Host.Core.run Sys2Proof.core (r.turns.length + 2) s = .next t ∧
      t.eng = .idle ∧ t.err = .ok ∧ t.agenda = rest ∧ t.ovr = s.ovr ∧
      t.entDone = descCount r.d ∧ t.tblDone = 1#16 ∧ t.cur = ⟨1, r.es.length⟩ ∧
      t.tier = decide (20 < (descDelay r.d).toNat) ∧
      t.txnCount = s.txnCount + BitVec.ofNat 32 r.es.length ∧ t.now = s.now + r.dt ∧
      t.history = s.history ++ tablesEvents s.devAddr f.aw s.now [r] ∧
      t.tmem = s.tmem ∧ t.tdesc = s.tdesc ∧ t.seqbuf = s.seqbuf ∧ t.devAddr = s.devAddr ∧
      t.rdata = s.rdata ∧ t.frame = s.frame ∧ t.frameLen = s.frameLen

/-- R64, R148: the host launches `WALL` on a list of tables that can all be applied, the transport accepts
every write, and every wait lasts long enough. The command ends with Ok and `TBL_DONE` the number of
tables; its history (R69) is every table's writes and wait in list order, each wait over before the next
table's first write. That the cursor ends past the last table and entry is the model's reading of R21 and
R41 (log 19); that a wait's end is a step of its own, and how the history records it, is the model's
reading too (logs 17, 20), and the number of steps its choice (logs 1, 2). -/
def Obligations.WallAppliesTablesInOrder : Prop :=
  ∀ (s : State) (hi : Word) (f : Fields) (rs : List TableRun) (rest : List Turn),
    s.eng = .idle → decode (hi ++ s.cmdLo) = .ok (.wall f) → (Instr.wall f).wellFormed = true →
    f.opa.toNat + f.opb.toNat ≤ s.params.tdescEntries → rs.length = f.opb.toNat → rs ≠ [] →
    holdsFrom s.tdesc f.opa.toNat (rs.map TableRun.d) → (∀ r ∈ rs, r.fits s) →
    s.agenda = .host (.writeReg 0x04 hi) :: .engine :: (tablesTurns rs ++ rest) →
    ∃ t, Host.Core.run Sys2Proof.core ((tablesTurns rs).length + 2) s = .next t ∧
      t.eng = .idle ∧ t.err = .ok ∧ t.agenda = rest ∧ t.ovr = s.ovr ∧ t.tblDone = f.opb ∧
      t.cur.tbl = rs.length ∧ t.entDone.toNat = t.cur.ent ∧
      t.txnCount = s.txnCount + BitVec.ofNat 32 (tablesEntries rs) ∧ t.now = s.now + tablesTime rs ∧
      t.history = s.history ++ tablesEvents s.devAddr f.aw s.now rs ∧
      t.tmem = s.tmem ∧ t.tdesc = s.tdesc ∧ t.seqbuf = s.seqbuf ∧ t.devAddr = s.devAddr ∧
      t.rdata = s.rdata ∧ t.frame = s.frame ∧ t.frameLen = s.frameLen

/-- R142, R143, R148: the same launch when a table after `rs` fails at the entry after `es`, with
`SETTLE_AFTER_FAILURE` false. The tables of `rs` stay applied and settled, the failing table does not
settle, no later entry or table is attempted, and the command ends with TransportFailure, `TBL_DONE` the
failing table and `ENT_DONE` the failing entry. That a wait's end is a step of its own, and how the history
(R69) records it, is the model's reading (logs 17, 20), and the number of steps its choice (logs 1, 2). -/
def Obligations.WallStopsAtFirstFailure : Prop :=
  ∀ (s : State) (hi : Word) (f : Fields) (rs : List TableRun) (d : DWord) (es : List Word) (e : Word)
    (rest : List Turn),
    s.eng = .idle → decode (hi ++ s.cmdLo) = .ok (.wall f) → (Instr.wall f).wellFormed = true →
    s.params.settleAfterFailure = false →
    f.opa.toNat + f.opb.toNat ≤ s.params.tdescEntries → rs.length < f.opb.toNat →
    holdsFrom s.tdesc f.opa.toNat (rs.map TableRun.d ++ [d]) → (∀ r ∈ rs, r.fits s) →
    (descDw d = 1#2 ∨ descDw d = 2#2) →
    (descBase d).toNat + (descCount d).toNat ≤ s.params.tmemEntries →
    es.length < (descCount d).toNat → holdsFrom s.tmem (descBase d).toNat (es ++ [e]) →
    s.agenda = .host (.writeReg 0x04 hi) :: .engine ::
      (tablesTurns rs ++ (okTurns es.length ++ .transport .fail :: .engine :: rest)) →
    ∃ t, Host.Core.run Sys2Proof.core ((tablesTurns rs).length + 2 * es.length + 4) s = .next t ∧
      t.eng = .idle ∧ t.err = .transportFailure ∧ t.agenda = rest ∧ t.ovr = s.ovr ∧
      t.tblDone = BitVec.ofNat 16 rs.length ∧ t.entDone = BitVec.ofNat 16 es.length ∧
      t.cur = ⟨rs.length, es.length⟩ ∧
      t.txnCount = s.txnCount + BitVec.ofNat 32 (tablesEntries rs + es.length + 1) ∧
      t.now = s.now + tablesTime rs ∧
      t.history = s.history ++ tablesEvents s.devAddr f.aw s.now rs ++
        es.map (entryEvent s.devAddr f.aw (descDw d) (.ok [])) ++
        [entryEvent s.devAddr f.aw (descDw d) .fail e] ∧
      t.tmem = s.tmem ∧ t.tdesc = s.tdesc ∧ t.seqbuf = s.seqbuf ∧ t.devAddr = s.devAddr ∧
      t.rdata = s.rdata ∧ t.frame = s.frame ∧ t.frameLen = s.frameLen

/-! ### Errors and completion (60_exceptions.md) -/

/-- R76: a launched word whose opcode is reserved completes with GenericFailure and has no other
effect. -/
def Obligations.ReservedOpcodeGenericFailure : Prop :=
  ∀ (s : State) (r : Resume), s.eng = .exec r → s.turn = .engine →
    (s.lcmd.extractLsb' 0 4 = 0#4 ∨ 9#4 < s.lcmd.extractLsb' 0 4) →
    step s = .next { s with agenda := s.agenda.tail, err := .genericFailure, eng := .idle }

/-- R74, R174 steps 2 and 3, for all nine commands: a nonzero reserved field is InvalidArgument before
anything else; with the reserved fields 0, an illegal width code the command uses is InvalidWidth; in
both cases nothing else changes, so no transaction is issued. -/
def Obligations.FieldErrorsComeFirst : Prop :=
  ∀ (i : Instr) (s : State), s.eng = .exec .start →
    (i.fields.rsv0 ≠ 0#8 ∨ i.fields.rsv1 ≠ 0#16 →
      exec i s = .next { s with err := .invalidArgument, eng := .idle }) ∧
    (i.fields.rsv0 = 0#8 → i.fields.rsv1 = 0#16 →
      (i.usesAw = true ∧ (i.fields.aw = 0#2 ∨ i.fields.aw = 3#2)) ∨
        (i.usesDw = true ∧ (i.fields.dw = 0#2 ∨ i.fields.dw = 3#2)) →
      exec i s = .next { s with err := .invalidWidth, eng := .idle })

/-- R77: a command reads no field it does not use: two commands that differ only in fields the opcode
ignores do the same in every state. -/
def Obligations.IgnoredFieldsNotRead : Prop :=
  ∀ (f g : Fields) (s : State), f.rsv0 = g.rsv0 → f.rsv1 = g.rsv1 →
    (f.aw = g.aw → f.opa = g.opa → exec (.enca f) s = exec (.enca g) s) ∧
    (f.dw = g.dw → exec (.decr f) s = exec (.decr g) s) ∧
    (f.aw = g.aw → f.dw = g.dw → f.opa = g.opa → exec (.rd f) s = exec (.rd g) s) ∧
    (f.aw = g.aw → f.opa = g.opa → f.opb = g.opb → exec (.wseq f) s = exec (.wseq g) s) ∧
    (f.aw = g.aw → f.opa = g.opa → exec (.wtbls f) s = exec (.wtbls g) s) ∧
    (f.aw = g.aw → f.opa = g.opa → f.opb = g.opb → exec (.wall f) s = exec (.wall g) s)

/-- R25, R173: `BUSY` falls only when a command completes on the engine's turn, or at reset; a completion
changes `ERR` and the phase on top of the command's own results, and never the request counter or the
history. -/
def Obligations.BusyEndsByCompletionOrReset : Prop :=
  ∀ s t : State, isBusy s = true → step s = .next t → isBusy t = false →
    s.turn = .reset ∨
      (s.turn = .engine ∧ (∃ r, s.eng = .exec r) ∧ t.txnCount = s.txnCount ∧ t.trace = s.trace ∧
        t.tmem = s.tmem ∧ t.devAddr = s.devAddr)

/-! ### Host interface (10_state.md, 70_reset_and_hazards.md) -/

/-- R40: a write of `v` to `CMD_HI` while the engine is idle stores it and launches `CMD_HI:CMD_LO`; no
other host write changes the latched command. -/
def Obligations.CmdHiWriteLaunches : Prop :=
  (∀ (s : State) (v : Word) (rest : List Turn), s.eng = .idle →
    s.agenda = .host (.writeReg 0x04 v) :: rest →
    step s = .next
      { s with
        agenda := rest
        cmdHi := v
        lcmd := v ++ s.cmdLo
        err := .ok
        entDone := 0#16
        tblDone := 0#16
        cur := ⟨0, 0⟩
        eng := .exec .start }) ∧
  (∀ (s : State) (a : HostAction) (rest : List Turn), s.agenda = .host a :: rest →
    isBusy s = true ∨ (∀ v, a ≠ .writeReg 0x04 v) →
    ∃ t, step s = .next t ∧ t.lcmd = s.lcmd)

/-- R22, R23, R24, R26, R28, R29, R31: every other register write while idle; read-only and unmapped
offsets ignore it. -/
def Obligations.IdleRegisterWrites : Prop :=
  ∀ (s : State) (offset : Nat) (v : Word) (rest : List Turn), s.eng = .idle → offset ≠ 0x04 →
    s.agenda = .host (.writeReg offset v) :: rest →
    step s = .next
      (let t : State := { s with agenda := rest }
       if offset = 0x00 then { t with cmdLo := v }
       else if offset = 0x08 then { t with ovr := s.ovr && !v.getLsbD 3 }
       else if offset = 0x0C then { t with devAddr := v.extractLsb' 0 7 }
       else if offset = 0x14 then { t with frame := v }
       else if offset = 0x18 then { t with frameLen := v.extractLsb' 0 3 }
       else if offset = 0x20 then { t with txnCount := 0#32 }
       else t)

/-- R196, R24, R178: while busy every host write but one to `STATUS` is discarded and sets `OVR`; a write
to `STATUS` clears `OVR` when its bit 3 is 1; a read changes nothing. That a write to a read-only or
unmapped place counts too is the model's reading (log 4). -/
def Obligations.BusyHostAccess : Prop :=
  ∀ (s : State) (a : HostAction) (rest : List Turn), isBusy s = true → s.agenda = .host a :: rest →
    step s = .next
      (match a with
       | .writeReg offset v =>
         if offset = 0x08 then { s with agenda := rest, ovr := s.ovr && !v.getLsbD 3 }
         else { s with agenda := rest, ovr := true }
       | .writeTmem _ _ | .writeTdesc _ _ | .writeSeq _ _ => { s with agenda := rest, ovr := true }
       | .readReg _ | .readTmem _ | .readTdesc _ | .readSeq _ => { s with agenda := rest })

/-- R22, R24, R26, R27, R29, R30: what the host reads at each offset: the fields at their bits, reserved
bits 0, and 0 at every other offset. -/
def Obligations.RegisterMapReads : Prop :=
  ∀ s : State,
    hostReadReg s 0x00 = s.cmdLo ∧ hostReadReg s 0x04 = s.cmdHi ∧
    ((hostReadReg s 0x08).getLsbD 0 = true ↔ s.eng ≠ .idle) ∧
    ((hostReadReg s 0x08).getLsbD 1 = true ↔ s.eng = .settle) ∧
    (hostReadReg s 0x08).getLsbD 2 = s.tier ∧ (hostReadReg s 0x08).getLsbD 3 = s.ovr ∧
    (hostReadReg s 0x08).extractLsb' 4 3 = errCode s.err ∧ (hostReadReg s 0x08).extractLsb' 7 25 = 0#25 ∧
    (hostReadReg s 0x0C).extractLsb' 0 7 = s.devAddr ∧ (hostReadReg s 0x0C).extractLsb' 7 25 = 0#25 ∧
    (hostReadReg s 0x10).extractLsb' 0 16 = s.rdata ∧ (hostReadReg s 0x10).extractLsb' 16 16 = 0#16 ∧
    hostReadReg s 0x14 = s.frame ∧
    (hostReadReg s 0x18).extractLsb' 0 3 = s.frameLen ∧ (hostReadReg s 0x18).extractLsb' 3 29 = 0#29 ∧
    (hostReadReg s 0x1C).extractLsb' 0 16 = s.entDone ∧
    (hostReadReg s 0x1C).extractLsb' 16 16 = s.tblDone ∧
    hostReadReg s 0x20 = s.txnCount ∧
    ∀ offset, offset % 4 ≠ 0 ∨ 0x20 < offset → hostReadReg s offset = 0#32

/-- R34: an element written while idle reads as the value written and every other element as before; a
write beyond the size or while busy changes no element; a read beyond the size gives 0; for each of the
three memories. That two reads of an element nothing has written agree is the model's choice (log 7). -/
def Obligations.ElementMemoryAccess : Prop :=
  ∀ (s : State) (i j : Nat) (v : Word) (d : DWord) (b : Byte),
    (hostReadTmem (s.hostAct (.writeTmem i v)) j =
      if j = i ∧ i < s.params.tmemEntries ∧ s.eng = .idle then v else hostReadTmem s j) ∧
    (hostReadTdesc (s.hostAct (.writeTdesc i d)) j =
      if j = i ∧ i < s.params.tdescEntries ∧ s.eng = .idle then d else hostReadTdesc s j) ∧
    (hostReadSeq (s.hostAct (.writeSeq i b)) j =
      if j = i ∧ i < s.params.seqMax ∧ s.eng = .idle then b else hostReadSeq s j) ∧
    (s.params.tmemEntries ≤ j → hostReadTmem s j = 0#32) ∧
    (s.params.tdescEntries ≤ j → hostReadTdesc s j = 0#64) ∧
    (s.params.seqMax ≤ j → hostReadSeq s j = 0#8)

/-- R33, R65: from a launch to its completion a command's inputs are fixed: unless the reset input comes,
a step from a busy state leaves `CLIENT`, the three memories, the command registers and the latched
command as they are, and `FRAME` and `FRAME_LEN` too while the state stays busy. -/
def Obligations.CommandInputsFixedWhileBusy : Prop :=
  ∀ s t : State, isBusy s = true → step s = .next t → s.turn ≠ .reset →
    t.devAddr = s.devAddr ∧ t.tmem = s.tmem ∧ t.tdesc = s.tdesc ∧ t.seqbuf = s.seqbuf ∧
    t.cmdLo = s.cmdLo ∧ t.cmdHi = s.cmdHi ∧ t.lcmd = s.lcmd ∧
    (isBusy t = true → t.frame = s.frame ∧ t.frameLen = s.frameLen)

/-! ### Reset -/

/-- R191: the machine right after reset, every value the spec gives; a reset event does not reset the
clock. -/
def Obligations.ResetStateValues : Prop :=
  State.reset.cmdLo = 0#32 ∧ State.reset.cmdHi = 0#32 ∧ isBusy State.reset = false ∧
  isSettling State.reset = false ∧ State.reset.tier = false ∧ State.reset.ovr = false ∧
  State.reset.err = .ok ∧ hostReadReg State.reset 0x08 = 0#32 ∧ State.reset.devAddr = 0#7 ∧
  State.reset.rdata = 0#16 ∧ State.reset.frame = 0#32 ∧ State.reset.frameLen = 0#3 ∧
  State.reset.entDone = 0#16 ∧ State.reset.tblDone = 0#16 ∧ State.reset.txnCount = 0#32 ∧
  State.reset.eng = .idle ∧ State.reset.req = none ∧ ∀ s : State, s.resetEvent.now = s.now

/-- R190: the reset event in any state, a running command included: every register is 0, the engine is
idle with no request, so that a late answer is ignored, a settle wait in progress ends and gets its end
time (R69), and nothing else happens to the history. That the history, the clock and the agenda stay,
and how the end is recorded, is the model's reading (logs 9, 20). -/
def Obligations.ResetEventAnywhere : Prop :=
  ∀ (s : State) (rest : List Turn), s.agenda = .reset :: rest →
    ∃ t, step s = .next t ∧ t.eng = .idle ∧ t.req = none ∧ t.cmdLo = 0#32 ∧ t.cmdHi = 0#32 ∧
      hostReadReg t 0x08 = 0#32 ∧ t.devAddr = 0#7 ∧ t.rdata = 0#16 ∧ t.frame = 0#32 ∧
      t.frameLen = 0#3 ∧ t.entDone = 0#16 ∧ t.tblDone = 0#16 ∧ t.txnCount = 0#32 ∧
      (∀ r, t.answer r = t) ∧ t.now = s.now ∧ t.agenda = rest ∧
      (s.eng ≠ .settle → t.trace = s.trace) ∧
      (∀ ms t0 es, s.eng = .settle → s.trace = .settle ms t0 none :: es →
        t.trace = .settle ms t0 (some (.byReset s.now)) :: es)

/-- R192: after reset the CPB is idle, and an idle CPB issues nothing and starts nothing until the host
launches a command. That a reset of an idle CPB leaves the history is the model's reading (log 9). -/
def Obligations.IdleStaysIdle : Prop :=
  State.reset.eng = .idle ∧
  ∀ s : State, s.eng = .idle → ¬ s.turn.writesReg 0x04 →
    ∃ t, step s = .next t ∧ t.eng = .idle ∧ t.trace = s.trace ∧
      (s.turn ≠ .reset → t.req = s.req ∧ t.err = s.err ∧ t.entDone = s.entDone ∧ t.tblDone = s.tblDone)

/-! ### Invariants of every step -/

/-- The invariant holds after reset. It rests on the values the model chose for what the spec leaves
unspecified there (logs 6, 8, 9). -/
def Obligations.InvariantAtReset : Prop := State.reset.Inv

/-- Every step keeps the invariant. At a reset turn it rests on the values the model chose for PEND and CUR
(log 8) and on how the history is kept and a settle wait ended (logs 9, 20); that the cursor ends past the
last entry and table is the model's reading (log 19), as is the bound on the length of a request (log
14). -/
def Obligations.StepKeepsInvariant : Prop :=
  ∀ s t : State, s.Inv → step s = .next t → t.Inv

/-- R60, R31: every transaction the engine issues is issued once and counted once: unless the turn is
reset or a write to `TXN_COUNT`, a step adds to `TXN_COUNT` exactly the transactions it adds to the
history, and that is at most one. -/
def Obligations.TransactionsCountedOnce : Prop :=
  ∀ s t : State, step s = .next t → s.turn ≠ .reset → ¬ s.turn.writesReg 0x20 →
    (countTxn t.trace = countTxn s.trace ∧ t.txnCount = s.txnCount) ∨
    (countTxn t.trace = countTxn s.trace + 1 ∧ t.txnCount = s.txnCount + 1#32 ∧
      s.turn = .engine ∧ ∃ r, s.eng = .exec r)

/-- R69, R59: the history only grows: a step leaves it, adds one event, or fills in the outcome or end of
its newest event; an event is never taken back. That a reset keeps the history, and how it ends a settle
wait there, is the model's reading (logs 9, 20). -/
def Obligations.HistoryNeverRewritten : Prop :=
  ∀ s t : State, step s = .next t →
    t.trace = s.trace ∨ (∃ e, t.trace = e :: s.trace) ∨
    (∃ q r es, s.trace = .txn q none :: es ∧ t.trace = .txn q (some r) :: es) ∨
    (∃ ms t0 es, s.trace = .settle ms t0 none :: es ∧ s.turn = .engine ∧
      t.trace = .settle ms t0 (some (.over s.now)) :: es) ∨
    (∃ ms t0 es, s.trace = .settle ms t0 none :: es ∧ s.turn = .reset ∧
      t.trace = .settle ms t0 (some (.byReset s.now)) :: es)

/-- R39: the clock never decreases, and only a turn of time moves it. -/
def Obligations.ClockNeverDecreases : Prop :=
  ∀ s t : State, step s = .next t →
    s.now ≤ t.now ∧ ((∀ dt, s.turn ≠ .time dt) → t.now = s.now) ∧
    (∀ dt, s.turn = .time dt → t.now = s.now + dt)

/-- R33, R34: a step changes a memory element only when the host writes it while idle, or at reset. -/
def Obligations.OnlyTheHostWritesMemories : Prop :=
  ∀ s t : State, step s = .next t → s.turn ≠ .reset →
    (∀ a, memRead t.tmem a ≠ memRead s.tmem a → s.eng = .idle ∧ ∃ v, s.turn = .host (.writeTmem a v)) ∧
    (∀ a, memRead t.tdesc a ≠ memRead s.tdesc a → s.eng = .idle ∧ ∃ v, s.turn = .host (.writeTdesc a v)) ∧
    (∀ a, memRead t.seqbuf a ≠ memRead s.seqbuf a → s.eng = .idle ∧ ∃ v, s.turn = .host (.writeSeq a v))
end

