-- ==== Sys2Proof/Laws/Mem.lean ====
section
/-! SUPPORT. The laws of element memories: reads after writes, and that every operation keeps the canonical
form and the bound on the indices. -/

namespace Sys2Proof.Machine

@[simp] theorem memRead_nil {α : Type} (i : Nat) : memRead ([] : Mem α) i = none := rfl

theorem memRead_cons {α : Type} (k : Nat) (v : α) (m : Mem α) (i : Nat) :
    memRead ((k, v) :: m) i = if k = i then some v else memRead m i := rfl

/-- An index below every listed one has no value. -/
theorem memRead_eq_none_of_lt {α : Type} (m : Mem α) (i : Nat) (h : ∀ e ∈ m, i < e.1) :
    memRead m i = none := by
  induction m with
  | nil => rfl
  | cons e m ih =>
    have he : i < e.1 := h e (by simp)
    rw [memRead_cons, if_neg (by omega)]
    exact ih fun x hx => h x (by simp [hx])

/-- A read after a write: the value written at its index, every other index as before. -/
theorem memRead_memWrite {α : Type} (m : Mem α) (i j : Nat) (v : α) :
    memRead (memWrite m i v) j = if i = j then some v else memRead m j := by
  induction m with
  | nil => simp [memWrite, memRead_cons]
  | cons e m ih =>
    obtain ⟨k, u⟩ := e
    simp only [memWrite]
    split
    · simp only [memRead_cons]
    · split
      · subst i; simp only [memRead_cons]; split <;> rfl
      · simp only [memRead_cons, ih]
        split
        · rw [if_neg (by omega)]
        · rfl

@[simp] theorem memRead_memWrite_same {α : Type} (m : Mem α) (i : Nat) (v : α) :
    memRead (memWrite m i v) i = some v := by simp [memRead_memWrite]

theorem memRead_memWrite_other {α : Type} (m : Mem α) (i j : Nat) (v : α) (h : i ≠ j) :
    memRead (memWrite m i v) j = memRead m j := by simp [memRead_memWrite, h]

/-- What a write lists: its own pair and pairs listed before. -/
theorem mem_memWrite {α : Type} (m : Mem α) (i : Nat) (v : α) (e : Nat × α)
    (h : e ∈ memWrite m i v) : e = (i, v) ∨ e ∈ m := by
  induction m with
  | nil => exact .inl (by simpa [memWrite] using h)
  | cons x m ih =>
    obtain ⟨k, u⟩ := x
    simp only [memWrite] at h
    split at h
    · simpa using h
    · split at h
      · rcases List.mem_cons.mp h with h | h
        · exact .inl h
        · exact .inr (by simp [h])
      · rcases List.mem_cons.mp h with h | h
        · exact .inr (by simp [h])
        · exact (ih h).imp_right fun h => by simp [h]

/-- A write keeps the canonical form. -/
theorem memWrite_wf {α : Type} (m : Mem α) (i : Nat) (v : α) (h : Mem.wf m) :
    Mem.wf (memWrite m i v) := by
  induction m with
  | nil => simp [memWrite, Mem.wf]
  | cons x m ih =>
    obtain ⟨k, u⟩ := x
    obtain ⟨hk, hm⟩ := List.pairwise_cons.mp h
    simp only [memWrite]
    split
    · rename_i hik
      refine List.pairwise_cons.mpr ⟨fun e he => ?_, h⟩
      rcases List.mem_cons.mp he with rfl | he
      · exact hik
      · exact Nat.lt_trans hik (hk e he)
    · split
      · subst i; exact List.pairwise_cons.mpr ⟨hk, hm⟩
      · refine List.pairwise_cons.mpr ⟨fun e he => ?_, ih hm⟩
        rcases mem_memWrite m i v e he with rfl | he
        · show k < i; omega
        · exact hk e he

/-- A write within the bound keeps every index within it. -/
theorem memWrite_lt {α : Type} (m : Mem α) (i n : Nat) (v : α) (hi : i < n)
    (h : ∀ e ∈ m, e.1 < n) : ∀ e ∈ memWrite m i v, e.1 < n := fun e he => by
  rcases mem_memWrite m i v e he with rfl | he
  · exact hi
  · exact h e he

/-- Reading many: it gives the values of consecutive elements, all written. -/
theorem memReadMany_ok {α : Type} (m : Mem α) (i : Nat) (vs : List α)
    (h : ∀ j (hj : j < vs.length), memRead m (i + j) = some vs[j]) :
    memReadMany m i vs.length = .ok vs := by
  induction vs generalizing i with
  | nil => rfl
  | cons v vs ih =>
    have h0 : memRead m i = some v := h 0 (by simp)
    have hs := ih (i + 1) fun j hj => by
      have := h (j + 1) (by simpa using hj)
      simpa [Nat.add_assoc, Nat.add_comm 1 j] using this
    simp [memReadMany, h0, hs]

/-- Reading many stops at the first element nothing has written. -/
theorem memReadMany_error {α : Type} (m : Mem α) (i j n : Nat) (hj : j < n)
    (h : memRead m (i + j) = none) (hb : ∀ k, k < j → memRead m (i + k) ≠ none) :
    memReadMany m i n = .error (i + j) := by
  induction n generalizing i j with
  | zero => omega
  | succ n ih =>
    cases j with
    | zero => simp [memReadMany, show memRead m i = none by simpa using h]
    | succ j =>
      obtain ⟨v, hv⟩ := Option.ne_none_iff_exists'.mp (hb 0 (by omega))
      have hs := ih (i + 1) j (by omega) (by rw [← h]; congr 1; omega) fun k hk => by
        have := hb (k + 1) (by omega)
        rwa [show i + 1 + k = i + (k + 1) by omega]
      simp only [Nat.add_zero] at hv
      simp [memReadMany, hv, hs, Nat.add_assoc, Nat.add_comm 1 j]

/-- Reading many gives as many values as asked. -/
theorem memReadMany_length {α : Type} (m : Mem α) (i n : Nat) (vs : List α)
    (h : memReadMany m i n = .ok vs) : vs.length = n := by
  induction n generalizing i vs with
  | zero => cases h; rfl
  | succ n ih =>
    simp only [memReadMany] at h
    split at h
    · cases h
    · split at h
      · cases h
      · rename_i us hus
        cases h
        simp [ih _ _ hus]

end Sys2Proof.Machine
end

