-- ==== Sys2Proof/Laws/State.lean ====
section
/-! SUPPORT. One lemma per field of State per update: what each named update does to each field. -/

namespace Sys2Proof.Machine

/-! ### State.complete -/

@[simp] theorem State.complete_params (s : State) (code : Result) : (s.complete code).params = s.params := rfl
@[simp] theorem State.complete_cmdLo (s : State) (code : Result) : (s.complete code).cmdLo = s.cmdLo := rfl
@[simp] theorem State.complete_cmdHi (s : State) (code : Result) : (s.complete code).cmdHi = s.cmdHi := rfl
@[simp] theorem State.complete_tier (s : State) (code : Result) : (s.complete code).tier = s.tier := rfl
@[simp] theorem State.complete_ovr (s : State) (code : Result) : (s.complete code).ovr = s.ovr := rfl
@[simp] theorem State.complete_err (s : State) (code : Result) : (s.complete code).err = code := rfl
@[simp] theorem State.complete_devAddr (s : State) (code : Result) : (s.complete code).devAddr = s.devAddr := rfl
@[simp] theorem State.complete_rdata (s : State) (code : Result) : (s.complete code).rdata = s.rdata := rfl
@[simp] theorem State.complete_frame (s : State) (code : Result) : (s.complete code).frame = s.frame := rfl
@[simp] theorem State.complete_frameLen (s : State) (code : Result) : (s.complete code).frameLen = s.frameLen := rfl
@[simp] theorem State.complete_entDone (s : State) (code : Result) : (s.complete code).entDone = s.entDone := rfl
@[simp] theorem State.complete_tblDone (s : State) (code : Result) : (s.complete code).tblDone = s.tblDone := rfl
@[simp] theorem State.complete_txnCount (s : State) (code : Result) : (s.complete code).txnCount = s.txnCount := rfl
@[simp] theorem State.complete_tmem (s : State) (code : Result) : (s.complete code).tmem = s.tmem := rfl
@[simp] theorem State.complete_tdesc (s : State) (code : Result) : (s.complete code).tdesc = s.tdesc := rfl
@[simp] theorem State.complete_seqbuf (s : State) (code : Result) : (s.complete code).seqbuf = s.seqbuf := rfl
@[simp] theorem State.complete_eng (s : State) (code : Result) : (s.complete code).eng = .idle := rfl
@[simp] theorem State.complete_lcmd (s : State) (code : Result) : (s.complete code).lcmd = s.lcmd := rfl
@[simp] theorem State.complete_cur (s : State) (code : Result) : (s.complete code).cur = s.cur := rfl
@[simp] theorem State.complete_req (s : State) (code : Result) : (s.complete code).req = s.req := rfl
@[simp] theorem State.complete_settleT0 (s : State) (code : Result) : (s.complete code).settleT0 = s.settleT0 := rfl
@[simp] theorem State.complete_settleMs (s : State) (code : Result) : (s.complete code).settleMs = s.settleMs := rfl
@[simp] theorem State.complete_pend (s : State) (code : Result) : (s.complete code).pend = s.pend := rfl
@[simp] theorem State.complete_desc (s : State) (code : Result) : (s.complete code).desc = s.desc := rfl
@[simp] theorem State.complete_now (s : State) (code : Result) : (s.complete code).now = s.now := rfl
@[simp] theorem State.complete_trace (s : State) (code : Result) : (s.complete code).trace = s.trace := rfl
@[simp] theorem State.complete_resets (s : State) (code : Result) : (s.complete code).resets = s.resets := rfl
@[simp] theorem State.complete_agenda (s : State) (code : Result) : (s.complete code).agenda = s.agenda := rfl

/-! ### State.transact -/

@[simp] theorem State.transact_params (s : State) (bs : List Byte) (n : Nat) : (s.transact bs n).params = s.params := rfl
@[simp] theorem State.transact_cmdLo (s : State) (bs : List Byte) (n : Nat) : (s.transact bs n).cmdLo = s.cmdLo := rfl
@[simp] theorem State.transact_cmdHi (s : State) (bs : List Byte) (n : Nat) : (s.transact bs n).cmdHi = s.cmdHi := rfl
@[simp] theorem State.transact_tier (s : State) (bs : List Byte) (n : Nat) : (s.transact bs n).tier = s.tier := rfl
@[simp] theorem State.transact_ovr (s : State) (bs : List Byte) (n : Nat) : (s.transact bs n).ovr = s.ovr := rfl
@[simp] theorem State.transact_err (s : State) (bs : List Byte) (n : Nat) : (s.transact bs n).err = s.err := rfl
@[simp] theorem State.transact_devAddr (s : State) (bs : List Byte) (n : Nat) : (s.transact bs n).devAddr = s.devAddr := rfl
@[simp] theorem State.transact_rdata (s : State) (bs : List Byte) (n : Nat) : (s.transact bs n).rdata = s.rdata := rfl
@[simp] theorem State.transact_frame (s : State) (bs : List Byte) (n : Nat) : (s.transact bs n).frame = s.frame := rfl
@[simp] theorem State.transact_frameLen (s : State) (bs : List Byte) (n : Nat) : (s.transact bs n).frameLen = s.frameLen := rfl
@[simp] theorem State.transact_entDone (s : State) (bs : List Byte) (n : Nat) : (s.transact bs n).entDone = s.entDone := rfl
@[simp] theorem State.transact_tblDone (s : State) (bs : List Byte) (n : Nat) : (s.transact bs n).tblDone = s.tblDone := rfl
@[simp] theorem State.transact_txnCount (s : State) (bs : List Byte) (n : Nat) : (s.transact bs n).txnCount = s.txnCount + 1#32 := rfl
@[simp] theorem State.transact_tmem (s : State) (bs : List Byte) (n : Nat) : (s.transact bs n).tmem = s.tmem := rfl
@[simp] theorem State.transact_tdesc (s : State) (bs : List Byte) (n : Nat) : (s.transact bs n).tdesc = s.tdesc := rfl
@[simp] theorem State.transact_seqbuf (s : State) (bs : List Byte) (n : Nat) : (s.transact bs n).seqbuf = s.seqbuf := rfl
@[simp] theorem State.transact_eng (s : State) (bs : List Byte) (n : Nat) : (s.transact bs n).eng = .waitBus := rfl
@[simp] theorem State.transact_lcmd (s : State) (bs : List Byte) (n : Nat) : (s.transact bs n).lcmd = s.lcmd := rfl
@[simp] theorem State.transact_cur (s : State) (bs : List Byte) (n : Nat) : (s.transact bs n).cur = s.cur := rfl
@[simp] theorem State.transact_req (s : State) (bs : List Byte) (n : Nat) : (s.transact bs n).req = some { dev := s.devAddr, wbytes := bs, rlen := n } := rfl
@[simp] theorem State.transact_settleT0 (s : State) (bs : List Byte) (n : Nat) : (s.transact bs n).settleT0 = s.settleT0 := rfl
@[simp] theorem State.transact_settleMs (s : State) (bs : List Byte) (n : Nat) : (s.transact bs n).settleMs = s.settleMs := rfl
@[simp] theorem State.transact_pend (s : State) (bs : List Byte) (n : Nat) : (s.transact bs n).pend = s.pend := rfl
@[simp] theorem State.transact_desc (s : State) (bs : List Byte) (n : Nat) : (s.transact bs n).desc = s.desc := rfl
@[simp] theorem State.transact_now (s : State) (bs : List Byte) (n : Nat) : (s.transact bs n).now = s.now := rfl
@[simp] theorem State.transact_trace (s : State) (bs : List Byte) (n : Nat) : (s.transact bs n).trace = .txn { dev := s.devAddr, wbytes := bs, rlen := n } none :: s.trace := rfl
@[simp] theorem State.transact_resets (s : State) (bs : List Byte) (n : Nat) : (s.transact bs n).resets = s.resets := rfl
@[simp] theorem State.transact_agenda (s : State) (bs : List Byte) (n : Nat) : (s.transact bs n).agenda = s.agenda := rfl

/-! ### State.startSettle -/

@[simp] theorem State.startSettle_params (s : State) (ms : Half) : (s.startSettle ms).params = s.params := rfl
@[simp] theorem State.startSettle_cmdLo (s : State) (ms : Half) : (s.startSettle ms).cmdLo = s.cmdLo := rfl
@[simp] theorem State.startSettle_cmdHi (s : State) (ms : Half) : (s.startSettle ms).cmdHi = s.cmdHi := rfl
@[simp] theorem State.startSettle_tier (s : State) (ms : Half) : (s.startSettle ms).tier = tierOf ms := rfl
@[simp] theorem State.startSettle_ovr (s : State) (ms : Half) : (s.startSettle ms).ovr = s.ovr := rfl
@[simp] theorem State.startSettle_err (s : State) (ms : Half) : (s.startSettle ms).err = s.err := rfl
@[simp] theorem State.startSettle_devAddr (s : State) (ms : Half) : (s.startSettle ms).devAddr = s.devAddr := rfl
@[simp] theorem State.startSettle_rdata (s : State) (ms : Half) : (s.startSettle ms).rdata = s.rdata := rfl
@[simp] theorem State.startSettle_frame (s : State) (ms : Half) : (s.startSettle ms).frame = s.frame := rfl
@[simp] theorem State.startSettle_frameLen (s : State) (ms : Half) : (s.startSettle ms).frameLen = s.frameLen := rfl
@[simp] theorem State.startSettle_entDone (s : State) (ms : Half) : (s.startSettle ms).entDone = s.entDone := rfl
@[simp] theorem State.startSettle_tblDone (s : State) (ms : Half) : (s.startSettle ms).tblDone = s.tblDone := rfl
@[simp] theorem State.startSettle_txnCount (s : State) (ms : Half) : (s.startSettle ms).txnCount = s.txnCount := rfl
@[simp] theorem State.startSettle_tmem (s : State) (ms : Half) : (s.startSettle ms).tmem = s.tmem := rfl
@[simp] theorem State.startSettle_tdesc (s : State) (ms : Half) : (s.startSettle ms).tdesc = s.tdesc := rfl
@[simp] theorem State.startSettle_seqbuf (s : State) (ms : Half) : (s.startSettle ms).seqbuf = s.seqbuf := rfl
@[simp] theorem State.startSettle_eng (s : State) (ms : Half) : (s.startSettle ms).eng = .settle := rfl
@[simp] theorem State.startSettle_lcmd (s : State) (ms : Half) : (s.startSettle ms).lcmd = s.lcmd := rfl
@[simp] theorem State.startSettle_cur (s : State) (ms : Half) : (s.startSettle ms).cur = s.cur := rfl
@[simp] theorem State.startSettle_req (s : State) (ms : Half) : (s.startSettle ms).req = s.req := rfl
@[simp] theorem State.startSettle_settleT0 (s : State) (ms : Half) : (s.startSettle ms).settleT0 = s.now := rfl
@[simp] theorem State.startSettle_settleMs (s : State) (ms : Half) : (s.startSettle ms).settleMs = ms := rfl
@[simp] theorem State.startSettle_pend (s : State) (ms : Half) : (s.startSettle ms).pend = s.pend := rfl
@[simp] theorem State.startSettle_desc (s : State) (ms : Half) : (s.startSettle ms).desc = s.desc := rfl
@[simp] theorem State.startSettle_now (s : State) (ms : Half) : (s.startSettle ms).now = s.now := rfl
@[simp] theorem State.startSettle_trace (s : State) (ms : Half) : (s.startSettle ms).trace = .settle ms s.now none :: s.trace := rfl
@[simp] theorem State.startSettle_resets (s : State) (ms : Half) : (s.startSettle ms).resets = s.resets := rfl
@[simp] theorem State.startSettle_agenda (s : State) (ms : Half) : (s.startSettle ms).agenda = s.agenda := rfl

/-! ### State.endSettle -/

@[simp] theorem State.endSettle_params (s : State) : (s.endSettle).params = s.params := rfl
@[simp] theorem State.endSettle_cmdLo (s : State) : (s.endSettle).cmdLo = s.cmdLo := rfl
@[simp] theorem State.endSettle_cmdHi (s : State) : (s.endSettle).cmdHi = s.cmdHi := rfl
@[simp] theorem State.endSettle_tier (s : State) : (s.endSettle).tier = s.tier := rfl
@[simp] theorem State.endSettle_ovr (s : State) : (s.endSettle).ovr = s.ovr := rfl
@[simp] theorem State.endSettle_err (s : State) : (s.endSettle).err = s.err := rfl
@[simp] theorem State.endSettle_devAddr (s : State) : (s.endSettle).devAddr = s.devAddr := rfl
@[simp] theorem State.endSettle_rdata (s : State) : (s.endSettle).rdata = s.rdata := rfl
@[simp] theorem State.endSettle_frame (s : State) : (s.endSettle).frame = s.frame := rfl
@[simp] theorem State.endSettle_frameLen (s : State) : (s.endSettle).frameLen = s.frameLen := rfl
@[simp] theorem State.endSettle_entDone (s : State) : (s.endSettle).entDone = s.entDone := rfl
@[simp] theorem State.endSettle_tblDone (s : State) : (s.endSettle).tblDone = s.tblDone := rfl
@[simp] theorem State.endSettle_txnCount (s : State) : (s.endSettle).txnCount = s.txnCount := rfl
@[simp] theorem State.endSettle_tmem (s : State) : (s.endSettle).tmem = s.tmem := rfl
@[simp] theorem State.endSettle_tdesc (s : State) : (s.endSettle).tdesc = s.tdesc := rfl
@[simp] theorem State.endSettle_seqbuf (s : State) : (s.endSettle).seqbuf = s.seqbuf := rfl
@[simp] theorem State.endSettle_eng (s : State) : (s.endSettle).eng = .exec .settled := rfl
@[simp] theorem State.endSettle_lcmd (s : State) : (s.endSettle).lcmd = s.lcmd := rfl
@[simp] theorem State.endSettle_cur (s : State) : (s.endSettle).cur = s.cur := rfl
@[simp] theorem State.endSettle_req (s : State) : (s.endSettle).req = s.req := rfl
@[simp] theorem State.endSettle_settleT0 (s : State) : (s.endSettle).settleT0 = s.settleT0 := rfl
@[simp] theorem State.endSettle_settleMs (s : State) : (s.endSettle).settleMs = s.settleMs := rfl
@[simp] theorem State.endSettle_pend (s : State) : (s.endSettle).pend = s.pend := rfl
@[simp] theorem State.endSettle_desc (s : State) : (s.endSettle).desc = s.desc := rfl
@[simp] theorem State.endSettle_now (s : State) : (s.endSettle).now = s.now := rfl
@[simp] theorem State.endSettle_trace (s : State) : (s.endSettle).trace = recordFinish (.over s.now) s.trace := rfl
@[simp] theorem State.endSettle_resets (s : State) : (s.endSettle).resets = s.resets := rfl
@[simp] theorem State.endSettle_agenda (s : State) : (s.endSettle).agenda = s.agenda := rfl

/-! ### State.launch -/

@[simp] theorem State.launch_params (s : State) (v : Word) : (s.launch v).params = s.params := rfl
@[simp] theorem State.launch_cmdLo (s : State) (v : Word) : (s.launch v).cmdLo = s.cmdLo := rfl
@[simp] theorem State.launch_cmdHi (s : State) (v : Word) : (s.launch v).cmdHi = v := rfl
@[simp] theorem State.launch_tier (s : State) (v : Word) : (s.launch v).tier = s.tier := rfl
@[simp] theorem State.launch_ovr (s : State) (v : Word) : (s.launch v).ovr = s.ovr := rfl
@[simp] theorem State.launch_err (s : State) (v : Word) : (s.launch v).err = .ok := rfl
@[simp] theorem State.launch_devAddr (s : State) (v : Word) : (s.launch v).devAddr = s.devAddr := rfl
@[simp] theorem State.launch_rdata (s : State) (v : Word) : (s.launch v).rdata = s.rdata := rfl
@[simp] theorem State.launch_frame (s : State) (v : Word) : (s.launch v).frame = s.frame := rfl
@[simp] theorem State.launch_frameLen (s : State) (v : Word) : (s.launch v).frameLen = s.frameLen := rfl
@[simp] theorem State.launch_entDone (s : State) (v : Word) : (s.launch v).entDone = 0#16 := rfl
@[simp] theorem State.launch_tblDone (s : State) (v : Word) : (s.launch v).tblDone = 0#16 := rfl
@[simp] theorem State.launch_txnCount (s : State) (v : Word) : (s.launch v).txnCount = s.txnCount := rfl
@[simp] theorem State.launch_tmem (s : State) (v : Word) : (s.launch v).tmem = s.tmem := rfl
@[simp] theorem State.launch_tdesc (s : State) (v : Word) : (s.launch v).tdesc = s.tdesc := rfl
@[simp] theorem State.launch_seqbuf (s : State) (v : Word) : (s.launch v).seqbuf = s.seqbuf := rfl
@[simp] theorem State.launch_eng (s : State) (v : Word) : (s.launch v).eng = .exec .start := rfl
@[simp] theorem State.launch_lcmd (s : State) (v : Word) : (s.launch v).lcmd = v ++ s.cmdLo := rfl
@[simp] theorem State.launch_cur (s : State) (v : Word) : (s.launch v).cur = { tbl := 0, ent := 0 } := rfl
@[simp] theorem State.launch_req (s : State) (v : Word) : (s.launch v).req = s.req := rfl
@[simp] theorem State.launch_settleT0 (s : State) (v : Word) : (s.launch v).settleT0 = s.settleT0 := rfl
@[simp] theorem State.launch_settleMs (s : State) (v : Word) : (s.launch v).settleMs = s.settleMs := rfl
@[simp] theorem State.launch_pend (s : State) (v : Word) : (s.launch v).pend = s.pend := rfl
@[simp] theorem State.launch_desc (s : State) (v : Word) : (s.launch v).desc = s.desc := rfl
@[simp] theorem State.launch_now (s : State) (v : Word) : (s.launch v).now = s.now := rfl
@[simp] theorem State.launch_trace (s : State) (v : Word) : (s.launch v).trace = s.trace := rfl
@[simp] theorem State.launch_resets (s : State) (v : Word) : (s.launch v).resets = s.resets := rfl
@[simp] theorem State.launch_agenda (s : State) (v : Word) : (s.launch v).agenda = s.agenda := rfl

/-! ### State.discard -/

@[simp] theorem State.discard_params (s : State) : (s.discard).params = s.params := rfl
@[simp] theorem State.discard_cmdLo (s : State) : (s.discard).cmdLo = s.cmdLo := rfl
@[simp] theorem State.discard_cmdHi (s : State) : (s.discard).cmdHi = s.cmdHi := rfl
@[simp] theorem State.discard_tier (s : State) : (s.discard).tier = s.tier := rfl
@[simp] theorem State.discard_ovr (s : State) : (s.discard).ovr = true := rfl
@[simp] theorem State.discard_err (s : State) : (s.discard).err = s.err := rfl
@[simp] theorem State.discard_devAddr (s : State) : (s.discard).devAddr = s.devAddr := rfl
@[simp] theorem State.discard_rdata (s : State) : (s.discard).rdata = s.rdata := rfl
@[simp] theorem State.discard_frame (s : State) : (s.discard).frame = s.frame := rfl
@[simp] theorem State.discard_frameLen (s : State) : (s.discard).frameLen = s.frameLen := rfl
@[simp] theorem State.discard_entDone (s : State) : (s.discard).entDone = s.entDone := rfl
@[simp] theorem State.discard_tblDone (s : State) : (s.discard).tblDone = s.tblDone := rfl
@[simp] theorem State.discard_txnCount (s : State) : (s.discard).txnCount = s.txnCount := rfl
@[simp] theorem State.discard_tmem (s : State) : (s.discard).tmem = s.tmem := rfl
@[simp] theorem State.discard_tdesc (s : State) : (s.discard).tdesc = s.tdesc := rfl
@[simp] theorem State.discard_seqbuf (s : State) : (s.discard).seqbuf = s.seqbuf := rfl
@[simp] theorem State.discard_eng (s : State) : (s.discard).eng = s.eng := rfl
@[simp] theorem State.discard_lcmd (s : State) : (s.discard).lcmd = s.lcmd := rfl
@[simp] theorem State.discard_cur (s : State) : (s.discard).cur = s.cur := rfl
@[simp] theorem State.discard_req (s : State) : (s.discard).req = s.req := rfl
@[simp] theorem State.discard_settleT0 (s : State) : (s.discard).settleT0 = s.settleT0 := rfl
@[simp] theorem State.discard_settleMs (s : State) : (s.discard).settleMs = s.settleMs := rfl
@[simp] theorem State.discard_pend (s : State) : (s.discard).pend = s.pend := rfl
@[simp] theorem State.discard_desc (s : State) : (s.discard).desc = s.desc := rfl
@[simp] theorem State.discard_now (s : State) : (s.discard).now = s.now := rfl
@[simp] theorem State.discard_trace (s : State) : (s.discard).trace = s.trace := rfl
@[simp] theorem State.discard_resets (s : State) : (s.discard).resets = s.resets := rfl
@[simp] theorem State.discard_agenda (s : State) : (s.discard).agenda = s.agenda := rfl

/-! ### State.advance -/

@[simp] theorem State.advance_params (s : State) (dt : Nat) : (s.advance dt).params = s.params := rfl
@[simp] theorem State.advance_cmdLo (s : State) (dt : Nat) : (s.advance dt).cmdLo = s.cmdLo := rfl
@[simp] theorem State.advance_cmdHi (s : State) (dt : Nat) : (s.advance dt).cmdHi = s.cmdHi := rfl
@[simp] theorem State.advance_tier (s : State) (dt : Nat) : (s.advance dt).tier = s.tier := rfl
@[simp] theorem State.advance_ovr (s : State) (dt : Nat) : (s.advance dt).ovr = s.ovr := rfl
@[simp] theorem State.advance_err (s : State) (dt : Nat) : (s.advance dt).err = s.err := rfl
@[simp] theorem State.advance_devAddr (s : State) (dt : Nat) : (s.advance dt).devAddr = s.devAddr := rfl
@[simp] theorem State.advance_rdata (s : State) (dt : Nat) : (s.advance dt).rdata = s.rdata := rfl
@[simp] theorem State.advance_frame (s : State) (dt : Nat) : (s.advance dt).frame = s.frame := rfl
@[simp] theorem State.advance_frameLen (s : State) (dt : Nat) : (s.advance dt).frameLen = s.frameLen := rfl
@[simp] theorem State.advance_entDone (s : State) (dt : Nat) : (s.advance dt).entDone = s.entDone := rfl
@[simp] theorem State.advance_tblDone (s : State) (dt : Nat) : (s.advance dt).tblDone = s.tblDone := rfl
@[simp] theorem State.advance_txnCount (s : State) (dt : Nat) : (s.advance dt).txnCount = s.txnCount := rfl
@[simp] theorem State.advance_tmem (s : State) (dt : Nat) : (s.advance dt).tmem = s.tmem := rfl
@[simp] theorem State.advance_tdesc (s : State) (dt : Nat) : (s.advance dt).tdesc = s.tdesc := rfl
@[simp] theorem State.advance_seqbuf (s : State) (dt : Nat) : (s.advance dt).seqbuf = s.seqbuf := rfl
@[simp] theorem State.advance_eng (s : State) (dt : Nat) : (s.advance dt).eng = s.eng := rfl
@[simp] theorem State.advance_lcmd (s : State) (dt : Nat) : (s.advance dt).lcmd = s.lcmd := rfl
@[simp] theorem State.advance_cur (s : State) (dt : Nat) : (s.advance dt).cur = s.cur := rfl
@[simp] theorem State.advance_req (s : State) (dt : Nat) : (s.advance dt).req = s.req := rfl
@[simp] theorem State.advance_settleT0 (s : State) (dt : Nat) : (s.advance dt).settleT0 = s.settleT0 := rfl
@[simp] theorem State.advance_settleMs (s : State) (dt : Nat) : (s.advance dt).settleMs = s.settleMs := rfl
@[simp] theorem State.advance_pend (s : State) (dt : Nat) : (s.advance dt).pend = s.pend := rfl
@[simp] theorem State.advance_desc (s : State) (dt : Nat) : (s.advance dt).desc = s.desc := rfl
@[simp] theorem State.advance_now (s : State) (dt : Nat) : (s.advance dt).now = s.now + dt := rfl
@[simp] theorem State.advance_trace (s : State) (dt : Nat) : (s.advance dt).trace = s.trace := rfl
@[simp] theorem State.advance_resets (s : State) (dt : Nat) : (s.advance dt).resets = s.resets := rfl
@[simp] theorem State.advance_agenda (s : State) (dt : Nat) : (s.advance dt).agenda = s.agenda := rfl

/-! ### State.passEntry -/

@[simp] theorem State.passEntry_params (s : State) : (s.passEntry).params = s.params := rfl
@[simp] theorem State.passEntry_cmdLo (s : State) : (s.passEntry).cmdLo = s.cmdLo := rfl
@[simp] theorem State.passEntry_cmdHi (s : State) : (s.passEntry).cmdHi = s.cmdHi := rfl
@[simp] theorem State.passEntry_tier (s : State) : (s.passEntry).tier = s.tier := rfl
@[simp] theorem State.passEntry_ovr (s : State) : (s.passEntry).ovr = s.ovr := rfl
@[simp] theorem State.passEntry_err (s : State) : (s.passEntry).err = s.err := rfl
@[simp] theorem State.passEntry_devAddr (s : State) : (s.passEntry).devAddr = s.devAddr := rfl
@[simp] theorem State.passEntry_rdata (s : State) : (s.passEntry).rdata = s.rdata := rfl
@[simp] theorem State.passEntry_frame (s : State) : (s.passEntry).frame = s.frame := rfl
@[simp] theorem State.passEntry_frameLen (s : State) : (s.passEntry).frameLen = s.frameLen := rfl
@[simp] theorem State.passEntry_entDone (s : State) : (s.passEntry).entDone = BitVec.ofNat 16 (s.cur.ent + 1) := rfl
@[simp] theorem State.passEntry_tblDone (s : State) : (s.passEntry).tblDone = s.tblDone := rfl
@[simp] theorem State.passEntry_txnCount (s : State) : (s.passEntry).txnCount = s.txnCount := rfl
@[simp] theorem State.passEntry_tmem (s : State) : (s.passEntry).tmem = s.tmem := rfl
@[simp] theorem State.passEntry_tdesc (s : State) : (s.passEntry).tdesc = s.tdesc := rfl
@[simp] theorem State.passEntry_seqbuf (s : State) : (s.passEntry).seqbuf = s.seqbuf := rfl
@[simp] theorem State.passEntry_eng (s : State) : (s.passEntry).eng = s.eng := rfl
@[simp] theorem State.passEntry_lcmd (s : State) : (s.passEntry).lcmd = s.lcmd := rfl
@[simp] theorem State.passEntry_cur (s : State) : (s.passEntry).cur = { tbl := s.cur.tbl, ent := s.cur.ent + 1 } := rfl
@[simp] theorem State.passEntry_req (s : State) : (s.passEntry).req = s.req := rfl
@[simp] theorem State.passEntry_settleT0 (s : State) : (s.passEntry).settleT0 = s.settleT0 := rfl
@[simp] theorem State.passEntry_settleMs (s : State) : (s.passEntry).settleMs = s.settleMs := rfl
@[simp] theorem State.passEntry_pend (s : State) : (s.passEntry).pend = s.pend := rfl
@[simp] theorem State.passEntry_desc (s : State) : (s.passEntry).desc = s.desc := rfl
@[simp] theorem State.passEntry_now (s : State) : (s.passEntry).now = s.now := rfl
@[simp] theorem State.passEntry_trace (s : State) : (s.passEntry).trace = s.trace := rfl
@[simp] theorem State.passEntry_resets (s : State) : (s.passEntry).resets = s.resets := rfl
@[simp] theorem State.passEntry_agenda (s : State) : (s.passEntry).agenda = s.agenda := rfl

/-! ### State.passTable -/

@[simp] theorem State.passTable_params (s : State) (j : Nat) : (s.passTable j).params = s.params := rfl
@[simp] theorem State.passTable_cmdLo (s : State) (j : Nat) : (s.passTable j).cmdLo = s.cmdLo := rfl
@[simp] theorem State.passTable_cmdHi (s : State) (j : Nat) : (s.passTable j).cmdHi = s.cmdHi := rfl
@[simp] theorem State.passTable_tier (s : State) (j : Nat) : (s.passTable j).tier = s.tier := rfl
@[simp] theorem State.passTable_ovr (s : State) (j : Nat) : (s.passTable j).ovr = s.ovr := rfl
@[simp] theorem State.passTable_err (s : State) (j : Nat) : (s.passTable j).err = s.err := rfl
@[simp] theorem State.passTable_devAddr (s : State) (j : Nat) : (s.passTable j).devAddr = s.devAddr := rfl
@[simp] theorem State.passTable_rdata (s : State) (j : Nat) : (s.passTable j).rdata = s.rdata := rfl
@[simp] theorem State.passTable_frame (s : State) (j : Nat) : (s.passTable j).frame = s.frame := rfl
@[simp] theorem State.passTable_frameLen (s : State) (j : Nat) : (s.passTable j).frameLen = s.frameLen := rfl
@[simp] theorem State.passTable_entDone (s : State) (j : Nat) : (s.passTable j).entDone = s.entDone := rfl
@[simp] theorem State.passTable_tblDone (s : State) (j : Nat) : (s.passTable j).tblDone = BitVec.ofNat 16 (j + 1) := rfl
@[simp] theorem State.passTable_txnCount (s : State) (j : Nat) : (s.passTable j).txnCount = s.txnCount := rfl
@[simp] theorem State.passTable_tmem (s : State) (j : Nat) : (s.passTable j).tmem = s.tmem := rfl
@[simp] theorem State.passTable_tdesc (s : State) (j : Nat) : (s.passTable j).tdesc = s.tdesc := rfl
@[simp] theorem State.passTable_seqbuf (s : State) (j : Nat) : (s.passTable j).seqbuf = s.seqbuf := rfl
@[simp] theorem State.passTable_eng (s : State) (j : Nat) : (s.passTable j).eng = s.eng := rfl
@[simp] theorem State.passTable_lcmd (s : State) (j : Nat) : (s.passTable j).lcmd = s.lcmd := rfl
@[simp] theorem State.passTable_cur (s : State) (j : Nat) : (s.passTable j).cur = { tbl := j + 1, ent := s.cur.ent } := rfl
@[simp] theorem State.passTable_req (s : State) (j : Nat) : (s.passTable j).req = s.req := rfl
@[simp] theorem State.passTable_settleT0 (s : State) (j : Nat) : (s.passTable j).settleT0 = s.settleT0 := rfl
@[simp] theorem State.passTable_settleMs (s : State) (j : Nat) : (s.passTable j).settleMs = s.settleMs := rfl
@[simp] theorem State.passTable_pend (s : State) (j : Nat) : (s.passTable j).pend = s.pend := rfl
@[simp] theorem State.passTable_desc (s : State) (j : Nat) : (s.passTable j).desc = s.desc := rfl
@[simp] theorem State.passTable_now (s : State) (j : Nat) : (s.passTable j).now = s.now := rfl
@[simp] theorem State.passTable_trace (s : State) (j : Nat) : (s.passTable j).trace = s.trace := rfl
@[simp] theorem State.passTable_resets (s : State) (j : Nat) : (s.passTable j).resets = s.resets := rfl
@[simp] theorem State.passTable_agenda (s : State) (j : Nat) : (s.passTable j).agenda = s.agenda := rfl

/-! ### State.resetEvent -/

@[simp] theorem State.resetEvent_params (s : State) : (s.resetEvent).params = s.params := rfl
@[simp] theorem State.resetEvent_cmdLo (s : State) : (s.resetEvent).cmdLo = 0#32 := rfl
@[simp] theorem State.resetEvent_cmdHi (s : State) : (s.resetEvent).cmdHi = 0#32 := rfl
@[simp] theorem State.resetEvent_tier (s : State) : (s.resetEvent).tier = false := rfl
@[simp] theorem State.resetEvent_ovr (s : State) : (s.resetEvent).ovr = false := rfl
@[simp] theorem State.resetEvent_err (s : State) : (s.resetEvent).err = .ok := rfl
@[simp] theorem State.resetEvent_devAddr (s : State) : (s.resetEvent).devAddr = 0#7 := rfl
@[simp] theorem State.resetEvent_rdata (s : State) : (s.resetEvent).rdata = 0#16 := rfl
@[simp] theorem State.resetEvent_frame (s : State) : (s.resetEvent).frame = 0#32 := rfl
@[simp] theorem State.resetEvent_frameLen (s : State) : (s.resetEvent).frameLen = 0#3 := rfl
@[simp] theorem State.resetEvent_entDone (s : State) : (s.resetEvent).entDone = 0#16 := rfl
@[simp] theorem State.resetEvent_tblDone (s : State) : (s.resetEvent).tblDone = 0#16 := rfl
@[simp] theorem State.resetEvent_txnCount (s : State) : (s.resetEvent).txnCount = 0#32 := rfl
@[simp] theorem State.resetEvent_tmem (s : State) : (s.resetEvent).tmem = [] := rfl
@[simp] theorem State.resetEvent_tdesc (s : State) : (s.resetEvent).tdesc = [] := rfl
@[simp] theorem State.resetEvent_seqbuf (s : State) : (s.resetEvent).seqbuf = [] := rfl
@[simp] theorem State.resetEvent_eng (s : State) : (s.resetEvent).eng = .idle := rfl
@[simp] theorem State.resetEvent_lcmd (s : State) : (s.resetEvent).lcmd = 0#64 := rfl
@[simp] theorem State.resetEvent_cur (s : State) : (s.resetEvent).cur = { tbl := 0, ent := 0 } := rfl
@[simp] theorem State.resetEvent_req (s : State) : (s.resetEvent).req = none := rfl
@[simp] theorem State.resetEvent_settleT0 (s : State) : (s.resetEvent).settleT0 = 0 := rfl
@[simp] theorem State.resetEvent_settleMs (s : State) : (s.resetEvent).settleMs = 0#16 := rfl
@[simp] theorem State.resetEvent_pend (s : State) : (s.resetEvent).pend = .ok := rfl
@[simp] theorem State.resetEvent_desc (s : State) : (s.resetEvent).desc = 0#64 := rfl
@[simp] theorem State.resetEvent_now (s : State) : (s.resetEvent).now = s.now := rfl
@[simp] theorem State.resetEvent_trace (s : State) : (s.resetEvent).trace = cutTrace s := rfl
@[simp] theorem State.resetEvent_resets (s : State) : (s.resetEvent).resets = s.resets + 1 := rfl
@[simp] theorem State.resetEvent_agenda (s : State) : (s.resetEvent).agenda = s.agenda := rfl

end Sys2Proof.Machine
end

