-- ==== Sys2Proof/Laws/Ops.lean ====
section
/-! SUPPORT. One lemma per shared operation, saying once everything it can do; and the shape of one engine
step of any command, from which frames and invariants follow. -/

namespace Sys2Proof.Machine

/-! ### Widths and frames -/

theorem widthOf_eq_none {c : WidthCode} : widthOf c = none ↔ c = 0#2 ∨ c = 3#2 := by
  revert c; decide

theorem widthOf_eq_some {c : WidthCode} : (∃ w, widthOf c = some w) ↔ c = 1#2 ∨ c = 2#2 := by
  have h : ∀ c : WidthCode, (widthOf c).isSome = true ↔ c = 1#2 ∨ c = 2#2 := by decide
  rw [← h c, Option.isSome_iff_exists]

theorem legal_iff {c : WidthCode} : legal c = true ↔ c = 1#2 ∨ c = 2#2 := by
  revert c; decide

theorem legal_eq_false {c : WidthCode} : legal c = false ↔ c = 0#2 ∨ c = 3#2 := by
  revert c; decide

theorem reservedClear_iff {f : Fields} : reservedClear f = true ↔ f.rsv0 = 0#8 ∧ f.rsv1 = 0#16 := by
  simp [reservedClear]

@[simp] theorem length_busBytes (w : Width) (v : Half) : (busBytes w v).length = widthBytes w := by
  cases w <;> rfl

theorem encodeAddress_some {aw : WidthCode} {a : Half} {bs : List Byte}
    (h : encodeAddress aw a = some bs) : ∃ w, widthOf aw = some w ∧ bs = busBytes w a := by
  unfold encodeAddress at h
  split at h
  · cases h
  · rename_i w hw; cases h; exact ⟨w, hw, rfl⟩

theorem encodeWrite_some {aw dw : WidthCode} {a d : Half} {bs : List Byte}
    (h : encodeWrite aw a dw d = some bs) :
    ∃ x y, widthOf aw = some x ∧ widthOf dw = some y ∧ bs = busBytes x a ++ busBytes y d := by
  unfold encodeWrite encodeAddress encodeData at h
  cases hx : widthOf aw <;> cases hy : widthOf dw <;> simp [hx, hy] at h
  exact ⟨_, _, rfl, rfl, h.symm⟩

theorem encodeWrite_legal {aw dw : WidthCode} (a d : Half) (ha : aw = 1#2 ∨ aw = 2#2)
    (hd : dw = 1#2 ∨ dw = 2#2) : ∃ bs, encodeWrite aw a dw d = some bs := by
  rcases ha with rfl | rfl <;> rcases hd with rfl | rfl <;> exact ⟨_, rfl⟩

theorem widthBytes_bounds (w : Width) : 1 ≤ widthBytes w ∧ widthBytes w ≤ 2 := by
  cases w <;> decide

/-! ### Results of the small operations -/

theorem checkReserved_next {f : Fields} {s t : State} {rest : Out}
    (h : checkReserved f s rest = .next t) :
    t = s.complete .invalidArgument ∨ (reservedClear f = true ∧ rest = .next t) := by
  unfold checkReserved at h
  split at h
  · rename_i hr; exact .inr ⟨hr, h⟩
  · cases h; exact .inl rfl

/-- What `answer` does: it changes something only when a request is outstanding (R120, R190). -/
theorem answer_cases (s : State) (r : Response) :
    (∃ q, s.eng = .waitBus ∧ s.req = some q ∧
      s.answer r = { s with eng := .exec (.answered (judge q.rlen r)), req := none, trace := recordOutcome r s.trace }) ∨
    ((s.eng ≠ .waitBus ∨ s.req = none) ∧ s.answer r = s) := by
  unfold State.answer
  split
  · rename_i q h1 h2; exact .inl ⟨q, h1, h2, rfl⟩
  · rename_i h
    refine .inr ⟨?_, rfl⟩
    cases hr : s.req with
    | none => exact .inr rfl
    | some q => exact .inl fun he => h q he hr

theorem recordOutcome_cases (r : Response) (l : List Event) :
    (∃ q es, l = .txn q none :: es ∧ recordOutcome r l = .txn q (some r) :: es) ∨ recordOutcome r l = l := by
  unfold recordOutcome
  split
  · rename_i q es; exact .inl ⟨q, es, rfl, rfl⟩
  · exact .inr rfl

theorem recordFinish_cases (e : WaitEnd) (l : List Event) :
    (∃ ms t0 es, l = .settle ms t0 none :: es ∧ recordFinish e l = .settle ms t0 (some e) :: es) ∨
      recordFinish e l = l := by
  unfold recordFinish
  split
  · rename_i ms t0 es; exact .inl ⟨ms, t0, es, rfl, rfl⟩
  · exact .inr rfl

/-- A reset outside a settle wait leaves the history (R190). -/
theorem cutTrace_of_ne {s : State} (h : s.eng ≠ .settle) : cutTrace s = s.trace := by
  unfold cutTrace
  split
  · exact absurd ‹_› h
  all_goals rfl

/-- A reset in a settle wait gives the wait its end (R190, R69). -/
theorem cutTrace_of_settle {s : State} {ms : Half} {t0 : Nat} {es : List Event} (h : s.eng = .settle)
    (ht : s.trace = .settle ms t0 none :: es) :
    cutTrace s = .settle ms t0 (some (.byReset s.now)) :: es := by
  simp only [cutTrace, h, ht, recordFinish]

theorem cutTrace_cases (s : State) :
    (∃ ms t0 es, s.trace = .settle ms t0 none :: es ∧
      cutTrace s = .settle ms t0 (some (.byReset s.now)) :: es) ∨ cutTrace s = s.trace := by
  by_cases h : s.eng = .settle
  · simp only [cutTrace, h]; exact recordFinish_cases _ _
  · exact .inr (cutTrace_of_ne h)

theorem settleOver_iff (s : State) :
    settleOver s = true ↔ s.settleMs.toNat * 1000 ≤ s.now - s.settleT0 := by simp [settleOver]

theorem isBusy_eq_false {s : State} : isBusy s = false ↔ s.eng = .idle := by
  unfold isBusy; cases s.eng <;> simp

theorem isBusy_eq_true {s : State} : isBusy s = true ↔ s.eng ≠ .idle := by
  unfold isBusy; cases s.eng <;> simp

/-- A discarded or accepted host write: what a host action can do (R34, R40, R196). -/
theorem hostAct_busy {s : State} (h : isBusy s = true) (a : HostAction) :
    s.hostAct a = { s with ovr := (s.hostAct a).ovr } := by
  cases a <;> simp only [State.hostAct, State.writeReg, State.writeTmem, State.writeTdesc, State.writeSeq, h, if_true]
  · split <;> rfl
  all_goals rfl

/-- A host action while idle: a launch, an accepted element write, or a change of registers only; a
write to TXN_COUNT is the only one that changes it (R22, R34, R40). -/
theorem hostAct_idle {s : State} (h : s.eng = .idle) (a : HostAction) :
    (∃ v, a = .writeReg 4 v ∧ s.hostAct a = s.launch v) ∨
    (∃ i v, a = .writeTmem i v ∧ i < s.params.tmemEntries ∧
      s.hostAct a = { s with tmem := memWrite s.tmem i v }) ∨
    (∃ i v, a = .writeTdesc i v ∧ i < s.params.tdescEntries ∧
      s.hostAct a = { s with tdesc := memWrite s.tdesc i v }) ∨
    (∃ i v, a = .writeSeq i v ∧ i < s.params.seqMax ∧
      s.hostAct a = { s with seqbuf := memWrite s.seqbuf i v }) ∨
    ((¬ ∃ v, a = .writeReg 4 v) ∧
      s.hostAct a = { s with
        cmdLo := (s.hostAct a).cmdLo, ovr := (s.hostAct a).ovr, devAddr := (s.hostAct a).devAddr,
        frame := (s.hostAct a).frame, frameLen := (s.hostAct a).frameLen,
        txnCount := (s.hostAct a).txnCount } ∧
      ((∃ v, a = .writeReg 0x20 v) ∨ (s.hostAct a).txnCount = s.txnCount)) := by
  have hb := isBusy_eq_false.mpr h
  cases a with
  | writeReg o v =>
    simp only [State.hostAct, State.writeReg, hb]
    unfold State.writeRegIdle
    simp only [Bool.false_eq_true, if_false]
    split
    · refine .inr (.inr (.inr (.inr ⟨by simp, rfl, .inr rfl⟩)))
    · exact .inl ⟨v, rfl, rfl⟩
    · refine .inr (.inr (.inr (.inr ⟨by simp, rfl, .inr rfl⟩)))
    · refine .inr (.inr (.inr (.inr ⟨by simp, rfl, .inr rfl⟩)))
    · refine .inr (.inr (.inr (.inr ⟨by simp, rfl, .inr rfl⟩)))
    · refine .inr (.inr (.inr (.inr ⟨by simp, rfl, .inr rfl⟩)))
    · refine .inr (.inr (.inr (.inr ⟨by simp, rfl, .inl ⟨_, rfl⟩⟩)))
    · rename_i h4 _ _ _ _ _
      refine .inr (.inr (.inr (.inr ⟨by simpa using h4, rfl, .inr rfl⟩)))
  | writeTmem i v =>
    simp only [State.hostAct, State.writeTmem, hb]
    by_cases hi : i < s.params.tmemEntries
    · simp only [hi, if_true]; exact .inr (.inl ⟨i, v, rfl, hi, rfl⟩)
    · simp only [hi, if_false]; refine .inr (.inr (.inr (.inr ⟨by simp, rfl, .inr rfl⟩)))
  | writeTdesc i v =>
    simp only [State.hostAct, State.writeTdesc, hb]
    by_cases hi : i < s.params.tdescEntries
    · simp only [hi, if_true]; exact .inr (.inr (.inl ⟨i, v, rfl, hi, rfl⟩))
    · simp only [hi, if_false]; refine .inr (.inr (.inr (.inr ⟨by simp, rfl, .inr rfl⟩)))
  | writeSeq i v =>
    simp only [State.hostAct, State.writeSeq, hb]
    by_cases hi : i < s.params.seqMax
    · simp only [hi, if_true]; exact .inr (.inr (.inr (.inl ⟨i, v, rfl, hi, rfl⟩)))
    · simp only [hi, if_false]; refine .inr (.inr (.inr (.inr ⟨by simp, rfl, .inr rfl⟩)))
  | readReg _ => refine .inr (.inr (.inr (.inr ⟨by simp, rfl, .inr rfl⟩)))
  | readTmem _ => refine .inr (.inr (.inr (.inr ⟨by simp, rfl, .inr rfl⟩)))
  | readTdesc _ => refine .inr (.inr (.inr (.inr ⟨by simp, rfl, .inr rfl⟩)))
  | readSeq _ => refine .inr (.inr (.inr (.inr ⟨by simp, rfl, .inr rfl⟩)))

/-! ### The shape of an engine step -/

/-- `u` is `s` but for the results a command may write before it blocks or completes: `RDATA`, `FRAME`,
`FRAME_LEN`, `PROGRESS`, `CUR`, `PEND` and the descriptor in use. -/
def LocalTo (s u : State) : Prop :=
  u = { s with
    rdata := u.rdata, frame := u.frame, frameLen := u.frameLen, entDone := u.entDone,
    tblDone := u.tblDone, cur := u.cur, pend := u.pend, desc := u.desc }

theorem LocalTo.refl (s : State) : LocalTo s s := rfl

theorem LocalTo.trans {s u v : State} (h : LocalTo s u) (k : LocalTo u v) : LocalTo s v := by
  unfold LocalTo at *
  rw [k, h]

/-- `u` shows the host the same `RDATA`, `FRAME` and `FRAME_LEN` as `s`. -/
def SameResults (s u : State) : Prop :=
  u.rdata = s.rdata ∧ u.frame = s.frame ∧ u.frameLen = s.frameLen

/-- How one engine step of a command ends: it completes, issues a transaction, or begins a settle
wait. -/
inductive EndsAs (s t : State) : Prop where
  | completed (u : State) (code : Result) (hu : LocalTo s u) (ht : t = u.complete code)
  | issued (u : State) (bs : List Byte) (n : Nat) (hu : LocalTo s u) (ht : t = u.transact bs n)
      (hb : 1 ≤ bs.length ∧ bs.length ≤ max 4 (2 + s.params.seqMax) ∧ n ≤ 2)
      (hf : SameResults s u)
  | settles (u : State) (hu : LocalTo s u) (ht : t = u.startSettle (descDelay u.desc))
      (hf : SameResults s u)

/-- What no engine step of a command changes, however it ends. -/
theorem EndsAs.frame {s t : State} (h : EndsAs s t) :
    t.tmem = s.tmem ∧ t.tdesc = s.tdesc ∧ t.seqbuf = s.seqbuf ∧ t.cmdLo = s.cmdLo ∧ t.cmdHi = s.cmdHi ∧
    t.devAddr = s.devAddr ∧ t.ovr = s.ovr ∧ t.now = s.now ∧ t.lcmd = s.lcmd ∧ t.params = s.params ∧
    t.agenda = s.agenda ∧ t.resets = s.resets := by
  rcases h with ⟨u, c, hu, rfl⟩ | ⟨u, bs, n, hu, rfl, -, -⟩ | ⟨u, hu, rfl, -⟩ <;> rw [hu] <;>
    exact ⟨rfl, rfl, rfl, rfl, rfl, rfl, rfl, rfl, rfl, rfl, rfl, rfl⟩

theorem finishEncode_ends {r : Option (List Byte)} {s t : State} (h : finishEncode r s = .next t) :
    EndsAs s t := by
  unfold finishEncode at h
  split at h <;> cases h
  · exact .completed s _ rfl rfl
  · exact .completed _ _ (by rfl) rfl

theorem finishWrite_next {v : Response} {s t : State} (h : finishWrite v s = .next t) :
    (v = .fail ∧ t = s.complete .transportFailure) ∨ (∃ rb, v = .ok rb ∧ t = s.complete .ok) := by
  unfold finishWrite at h
  split at h <;> cases h
  · exact .inl ⟨rfl, rfl⟩
  · exact .inr ⟨_, rfl, rfl⟩

theorem finishWrite_ends {v : Response} {s t : State} (h : finishWrite v s = .next t) : EndsAs s t := by
  rcases finishWrite_next h with ⟨-, rfl⟩ | ⟨_, -, rfl⟩ <;> exact .completed s _ rfl rfl

/-- The end of `endTable` in the two cases of R143. -/
theorem endTable_cases (r : Result) (s : State) :
    ((r = .ok ∨ s.params.settleAfterFailure = true) ∧
      endTable r s = .next ({ s with pend := r }.startSettle (descDelay s.desc))) ∨
    (r ≠ .ok ∧ s.params.settleAfterFailure = false ∧
      endTable r s = .next ({ s with pend := r }.complete r)) := by
  unfold endTable
  split
  · rename_i h; exact .inl ⟨h, rfl⟩
  · rename_i h
    rw [not_or] at h
    exact .inr ⟨h.1, by simpa using h.2, rfl⟩

/-- What issuing an entry does when it gives a next state (R141). -/
theorem issueEntry_next {aw dw : WidthCode} {base i : Nat} {s t : State}
    (h : issueEntry aw dw base i s = .next t) :
    ∃ e, memRead s.tmem (base + i) = some e ∧
      ((encodeWrite aw (entryAddr e) dw (entryValue e) = none ∧ t = s.complete .invalidWidth) ∨
       ∃ bs, encodeWrite aw (entryAddr e) dw (entryValue e) = some bs ∧
        t = { s with cur := { s.cur with ent := i } }.transact bs 0) := by
  unfold issueEntry at h
  split at h
  · cases h
  · rename_i e he
    refine ⟨e, he, ?_⟩
    split at h <;> cases h
    · rename_i hn; exact .inl ⟨hn, rfl⟩
    · rename_i bs hs; exact .inr ⟨bs, hs, rfl⟩

/-- With legal widths an entry's frame is `entryFrame`. -/
theorem encodeWrite_entry {aw dw : WidthCode} (ha : aw = 1#2 ∨ aw = 2#2) (hd : dw = 1#2 ∨ dw = 2#2)
    (e : Word) : encodeWrite aw (entryAddr e) dw (entryValue e) = some (entryFrame aw dw e) := by
  obtain ⟨bs, h⟩ := encodeWrite_legal (entryAddr e) (entryValue e) ha hd
  rw [entryFrame, h]; rfl

/-- With legal widths issuing an entry faults on an unwritten element and otherwise issues its frame
(R141). -/
theorem issueEntry_legal {aw dw : WidthCode} (ha : aw = 1#2 ∨ aw = 2#2) (hd : dw = 1#2 ∨ dw = 2#2)
    (base i : Nat) (s : State) :
    issueEntry aw dw base i s =
      match memRead s.tmem (base + i) with
      | none => .fault (.unwrittenTmem (base + i))
      | some e => .next ({ s with cur := { s.cur with ent := i } }.transact (entryFrame aw dw e) 0) := by
  unfold issueEntry
  cases memRead s.tmem (base + i) with
  | none => rfl
  | some e => simp only [encodeWrite_entry ha hd]

theorem issueEntry_ends {aw dw : WidthCode} {base i : Nat} {s u t : State}
    (h : issueEntry aw dw base i u = .next t) (hu : LocalTo s u) (hf : SameResults s u) : EndsAs s t := by
  obtain ⟨e, -, ⟨-, rfl⟩ | ⟨bs, hbs, rfl⟩⟩ := issueEntry_next h
  · exact .completed u _ hu rfl
  · obtain ⟨x, y, -, -, rfl⟩ := encodeWrite_some hbs
    refine .issued _ _ _ (hu.trans (by rfl)) rfl ?_ hf
    have := widthBytes_bounds x
    have := widthBytes_bounds y
    simp
    omega

/-- The two ways a table's entries go on: through `done` with a result, or by issuing an entry. -/
theorem beginEntries_ends {aw dw : WidthCode} {base n : Nat} {done : Result → State → Out}
    {s u t : State} (h : beginEntries aw dw base n done u = .next t)
    (hd : ∀ r, done r u = .next t → EndsAs s t) (hu : LocalTo s u) (hf : SameResults s u) :
    EndsAs s t := by
  unfold beginEntries at h
  split at h
  · exact hd _ h
  · exact issueEntry_ends h hu hf

theorem nextEntry_ends {aw dw : WidthCode} {base n : Nat} {done : Result → State → Out} {v : Response}
    {s t : State} (h : nextEntry aw dw base n done v s = .next t)
    (hd : ∀ r u, done r u = .next t → LocalTo s u → SameResults s u → EndsAs s t) : EndsAs s t := by
  unfold nextEntry at h
  split at h
  · exact hd _ _ h rfl ⟨rfl, rfl, rfl⟩
  · split at h
    · exact issueEntry_ends h (by rfl) ⟨rfl, rfl, rfl⟩
    · exact hd _ _ h (by rfl) ⟨rfl, rfl, rfl⟩

theorem endTable_ends {r : Result} {s u t : State} (h : endTable r u = .next t) (hu : LocalTo s u)
    (hf : SameResults s u) : EndsAs s t := by
  rcases endTable_cases r u with ⟨-, e⟩ | ⟨-, -, e⟩ <;> rw [e] at h <;> cases h
  · exact .settles _ (hu.trans (by rfl)) rfl hf
  · exact .completed _ _ (hu.trans (by rfl)) rfl

theorem startTable_ends {aw : WidthCode} {j : Nat} {d : DWord} {s u t : State}
    (h : startTable aw j d u = .next t) (hu : LocalTo s u) (hf : SameResults s u) : EndsAs s t := by
  simp only [startTable] at h
  split at h
  · exact endTable_ends h (hu.trans (by rfl)) hf
  · split at h
    · exact endTable_ends h (hu.trans (by rfl)) hf
    · exact beginEntries_ends h (fun r h => endTable_ends h (hu.trans (by rfl)) hf) (hu.trans (by rfl)) hf

theorem loadTable_ends {aw : WidthCode} {k j : Nat} {s u t : State}
    (h : loadTable aw k j u = .next t) (hu : LocalTo s u) (hf : SameResults s u) : EndsAs s t := by
  unfold loadTable at h
  split at h
  · cases h
  · exact startTable_ends h hu hf

theorem finishTbl_ends {r : Result} {s u t : State} (h : finishTbl r u = .next t) (hu : LocalTo s u) :
    EndsAs s t := by
  cases h; exact .completed u _ hu rfl

/-- The shape of one engine step of any command in any state (R75, R120, R145, R173). -/
theorem exec_ends {i : Instr} {s t : State} (h : exec i s = .next t) : EndsAs s t := by
  have hc : ∀ {s : State} {code : Result}, EndsAs s (s.complete code) := .completed _ _ (by rfl) rfl
  cases i with
  | encw f =>
    rcases checkReserved_next h with rfl | ⟨-, h⟩
    · exact hc
    · exact finishEncode_ends h
  | enca f =>
    rcases checkReserved_next h with rfl | ⟨-, h⟩
    · exact hc
    · exact finishEncode_ends h
  | decr f =>
    rcases checkReserved_next h with rfl | ⟨-, h⟩
    · exact hc
    · split at h
      · cases h; exact hc
      · split at h
        · cases h; exact hc
        · split at h <;> cases h
          · exact hc
          · exact .completed _ _ (by rfl) rfl
  | wrs f =>
    simp only [exec, execWrs] at h
    split at h
    · exact finishWrite_ends h
    all_goals
      rcases checkReserved_next h with rfl | ⟨-, h⟩
      · exact hc
      · split at h <;> cases h
        · exact hc
        · rename_i bs hbs
          obtain ⟨x, y, -, -, rfl⟩ := encodeWrite_some hbs
          refine .issued s _ _ rfl rfl ?_ ⟨rfl, rfl, rfl⟩
          have := widthBytes_bounds x
          have := widthBytes_bounds y
          simp
          omega
  | rd f =>
    simp only [exec, execRd] at h
    split at h
    · unfold finishRead at h
      split at h
      · cases h; exact hc
      · split at h <;> cases h
        · exact hc
        · exact .completed _ _ (by rfl) rfl
    all_goals
      rcases checkReserved_next h with rfl | ⟨-, h⟩
      · exact hc
      · split at h <;> cases h
        · rename_i bs w hbs hw
          obtain ⟨x, -, rfl⟩ := encodeAddress_some hbs
          refine .issued s _ _ rfl rfl ?_ ⟨rfl, rfl, rfl⟩
          have := widthBytes_bounds x
          have := widthBytes_bounds w
          simp
          omega
        · exact hc
  | wseq f =>
    simp only [exec, execWseq] at h
    split at h
    · exact finishWrite_ends h
    all_goals
      rcases checkReserved_next h with rfl | ⟨-, h⟩
      · exact hc
      · split at h
        · cases h; exact hc
        · rename_i bs hbs
          split at h
          · cases h; exact hc
          · split at h
            · cases h; exact hc
            · split at h <;> cases h
              rename_i data hdata
              obtain ⟨x, -, rfl⟩ := encodeAddress_some hbs
              have hl := memReadMany_length _ _ _ _ hdata
              refine .issued s _ _ rfl rfl ?_ ⟨rfl, rfl, rfl⟩
              have := widthBytes_bounds x
              simp [hl]
              omega
  | wtbl f =>
    simp only [exec, execWtbl] at h
    split at h
    · exact nextEntry_ends h fun r u h hu _ => finishTbl_ends h hu
    all_goals
      rcases checkReserved_next h with rfl | ⟨-, h⟩
      · exact hc
      · split at h
        · cases h; exact hc
        · split at h
          · cases h; exact hc
          · exact beginEntries_ends h (fun r h => finishTbl_ends h (by rfl)) (by rfl) ⟨rfl, rfl, rfl⟩
  | wtbls f =>
    simp only [exec, execWtbls] at h
    split at h
    · exact nextEntry_ends h fun r u h hu hf => endTable_ends h hu hf
    · split at h <;> cases h
      · exact .completed _ _ (by rfl) rfl
      · exact hc
    · rcases checkReserved_next h with rfl | ⟨-, h⟩
      · exact hc
      · split at h
        · cases h; exact hc
        · split at h
          · cases h; exact hc
          · exact loadTable_ends h (by rfl) ⟨rfl, rfl, rfl⟩
  | wall f =>
    simp only [exec, execWall] at h
    split at h
    · exact nextEntry_ends h fun r u h hu hf => endTable_ends h hu hf
    · split at h
      · split at h
        · exact loadTable_ends h (by rfl) ⟨rfl, rfl, rfl⟩
        · cases h; exact .completed _ _ (by rfl) rfl
      · cases h; exact hc
    · rcases checkReserved_next h with rfl | ⟨-, h⟩
      · exact hc
      · split at h
        · cases h; exact hc
        · split at h
          · cases h; exact hc
          · split at h
            · cases h; exact hc
            · exact loadTable_ends h (by rfl) ⟨rfl, rfl, rfl⟩

/-! ### The turns of a step -/

/-- The engine's turn: nothing, the end of a settle wait, a reserved opcode, or one engine step of the
latched command. -/
theorem engineTurn_cases {s t : State} (h : engineTurn s = .next t) :
    ((s.eng = .idle ∨ s.eng = .waitBus ∨ (s.eng = .settle ∧ settleOver s = false)) ∧ t = s) ∨
    (s.eng = .settle ∧ settleOver s = true ∧ t = s.endSettle) ∨
    (∃ r, s.eng = .exec r ∧
      ((∃ e, decode s.lcmd = .error e ∧ t = s.complete .genericFailure) ∨
       ∃ i, decode s.lcmd = .ok i ∧ exec i s = .next t)) := by
  unfold engineTurn at h
  split at h
  · rename_i he; cases h; exact .inl ⟨.inl he, rfl⟩
  · rename_i he; cases h; exact .inl ⟨.inr (.inl he), rfl⟩
  · rename_i he
    split at h <;> cases h
    · rename_i ho; exact .inr (.inl ⟨he, ho, rfl⟩)
    · rename_i ho; exact .inl ⟨.inr (.inr ⟨he, by simpa using ho⟩), rfl⟩
  · rename_i r he
    refine .inr (.inr ⟨r, he, ?_⟩)
    split at h
    · rename_i i hi; exact .inr ⟨i, hi, h⟩
    · rename_i e hi; cases h; exact .inl ⟨e, hi, rfl⟩

/-- A step is the turn that comes next, taken on the state less that turn. -/
theorem step_eq (s : State) : step s = takeTurn s.turn { s with agenda := s.agenda.tail } := by
  unfold step State.turn
  cases h : s.agenda with
  | nil =>
    show engineTurn s = engineTurn { s with agenda := [] }
    rw [← h]
  | cons a rest => rfl

theorem step_nil {s : State} (h : s.agenda = []) : step s = engineTurn s := by
  unfold step; rw [h]

theorem step_cons {s : State} {a : Turn} {rest : List Turn} (h : s.agenda = a :: rest) :
    step s = takeTurn a { s with agenda := rest } := by
  unfold step; rw [h]

/-- A step that goes on is the engine's turn, a host action, an answer, the clock or a reset, on the state
less that turn. -/
theorem step_cases {s t : State} (h : step s = .next t) :
    (s.turn = .engine ∧ engineTurn { s with agenda := s.agenda.tail } = .next t) ∨
    (∃ a, s.turn = .host a ∧ t = ({ s with agenda := s.agenda.tail } : State).hostAct a) ∨
    (∃ r, s.turn = .transport r ∧ t = ({ s with agenda := s.agenda.tail } : State).answer r) ∨
    (∃ dt, s.turn = .time dt ∧ t = ({ s with agenda := s.agenda.tail } : State).advance dt) ∨
    (s.turn = .reset ∧ t = ({ s with agenda := s.agenda.tail } : State).resetEvent) := by
  rw [step_eq] at h
  cases ht : s.turn <;> rw [ht] at h
  · exact .inl ⟨rfl, h⟩
  · cases h; exact .inr (.inl ⟨_, rfl, rfl⟩)
  · cases h; exact .inr (.inr (.inl ⟨_, rfl, rfl⟩))
  · cases h; exact .inr (.inr (.inr (.inl ⟨_, rfl, rfl⟩)))
  · cases h; exact .inr (.inr (.inr (.inr ⟨rfl, rfl⟩)))

/-! ### Runs -/

theorem run_zero (s : State) : Host.Core.run core 0 s = .next s := rfl

/-- A run whose first step goes on. -/
theorem run_succ {s t : State} (h : step s = .next t) (n : Nat) :
    Host.Core.run core (n + 1) s = Host.Core.run core n t := by
  have h' : core.step s = .next t := h
  simp only [Host.Core.run, h']

/-- A run of one step is that step. -/
theorem run_one (s : State) : Host.Core.run core 1 s = step s := by
  cases h : step s with
  | next t => rw [run_succ h, run_zero]; rfl
  | fault r => have h' : core.step s = .fault r := h; simp only [Host.Core.run, h']; rfl
  | refused r => have h' : core.step s = .refused r := h; simp only [Host.Core.run, h']; rfl

end Sys2Proof.Machine
end

