-- ==== Sys2Proof/Laws/PerInstr.lean ====
section
/-! SUPPORT. Statements about every command, one lemma per constructor of Instr. Family OpcodeNibble: the
opcode field of a command's word is the command's opcode (30_encoding.md R71, R75). -/

namespace Sys2Proof.Laws.OpcodeNibble

/-- `CMD[3:0]` of the command's word is its opcode. -/
def Statement (i : Instr) : Prop := wordOp (encode i) = opcodeOf i

/-- The low part of a concatenation. -/
theorem extractLsb'_append_low {n m : Nat} (x : BitVec n) (y : BitVec m) :
    (x ++ y).extractLsb' 0 m = y := by
  apply BitVec.eq_of_getLsbD_eq
  intro k hk
  simp [BitVec.getLsbD_append, hk]

/-- The opcode field of a packed word, whatever the fields. -/
theorem wordOp_packWord (op : BitVec 4) (f : Fields) : wordOp (packWord op f) = op :=
  extractLsb'_append_low (f.rsv1 ++ f.opb ++ f.opa ++ f.rsv0 ++ f.dw ++ f.aw) op

theorem encw (f : Fields) : Statement (.encw f) := wordOp_packWord _ f
theorem enca (f : Fields) : Statement (.enca f) := wordOp_packWord _ f
theorem decr (f : Fields) : Statement (.decr f) := wordOp_packWord _ f
theorem wrs (f : Fields) : Statement (.wrs f) := wordOp_packWord _ f
theorem rd (f : Fields) : Statement (.rd f) := wordOp_packWord _ f
theorem wseq (f : Fields) : Statement (.wseq f) := wordOp_packWord _ f
theorem wtbl (f : Fields) : Statement (.wtbl f) := wordOp_packWord _ f
theorem wtbls (f : Fields) : Statement (.wtbls f) := wordOp_packWord _ f
theorem wall (f : Fields) : Statement (.wall f) := wordOp_packWord _ f

end Sys2Proof.Laws.OpcodeNibble
end

