-- ==== Sys2Proof/Tests/Slice0.lean ====
section
/-! SUPPORT. The model's own tests: the smoke tests of WellFormed, words written out from the encoding of
30_encoding.md, one-step tests whose results are the vectors of 95_test_vectors.md, and for every
statement with hypotheses a witness that meets them together. -/

namespace Sys2Proof.Tests

open Sys2Proof.Machine

/-! ### Helpers -/

/-- The parameters of 95_test_vectors.md. -/
def testParams : Params := ⟨15, 3, 7, .ok, .ok, false⟩

/-- The reset state with the device address and memories of the vectors B12 and T7 to T18. -/
def base : State :=
  { State.reset with
    params := testParams
    devAddr := 0x36#7
    tmem := [(0, 0x01000001#32), (1, 0x01030001#32), (2, 0x0340047E#32), (3, 0#32)]
    tdesc := [(0, 0x0001000500020000#64), (1, 0x0002003200010002#64), (2, 0x0001001400000003#64), (3, 0x0003001500010000#64)]
    seqbuf := [(0, 0x11#8), (1, 0x22#8), (2, 0x33#8)] }

/-- The command word `w` has been launched in `s`. -/
def launched (w : DWord) (s : State) : State := { s with lcmd := w, eng := .exec .start }

/-- The command word `w` waits in `s` for the transport with request `q`. -/
def waiting (w : DWord) (q : Request) (s : State) : State :=
  { s with lcmd := w, eng := .waitBus, req := some q, txnCount := 1#32, trace := [.txn q none] }

/-- The command word `w` has just been answered `v` in `s`. -/
def answered (w : DWord) (v : Response) (s : State) : State := { s with lcmd := w, eng := .exec (.answered v) }

/-- The command word `w` settles in `s`, for 5 ms since 0, and `t` µs have passed. -/
def settling (w : DWord) (t : Nat) (s : State) : State :=
  { s with lcmd := w, eng := .settle, settleMs := 5#16, settleT0 := 0, now := t, trace := [.settle 5#16 0 none] }

/-- Part of the next state, if there is one. -/
def after {α : Type} (o : Out) (g : State → α) : Option α :=
  match o with
  | .next t => some (g t)
  | .fault _ | .refused _ => none

/-- The fault, if the step stops with one. -/
def faultOf (o : Out) : Option Fault :=
  match o with
  | .fault r => some r
  | .next _ | .refused _ => none

/-! ### WellFormed (R71, R72, R74) -/

theorem test_wellFormed_accepts : (Instr.wrs ⟨2, 1, 0, 0x0100, 1, 0⟩).wellFormed = true := by decide
theorem test_wellFormed_refuses_rsv0 : (Instr.wrs ⟨2, 2, 1, 1, 1, 0⟩).wellFormed = false := by decide
theorem test_wellFormed_refuses_rsv1 : (Instr.decr ⟨0, 2, 0, 0, 0, 1⟩).wellFormed = false := by decide
theorem test_wellFormed_refuses_aw0 : (Instr.enca ⟨0, 0, 0, 0, 0, 0⟩).wellFormed = false := by decide
theorem test_wellFormed_refuses_aw3 : (Instr.wall ⟨3, 0, 0, 0, 1, 0⟩).wellFormed = false := by decide
theorem test_wellFormed_refuses_dw0 : (Instr.rd ⟨2, 0, 0, 5, 0, 0⟩).wellFormed = false := by decide
theorem test_wellFormed_refuses_dw3 : (Instr.wtbl ⟨2, 3, 0, 0, 0, 0⟩).wellFormed = false := by decide
theorem test_wellFormed_ignores_unused_dw : (Instr.enca ⟨2, 3, 0, 0xFFFF, 0, 0⟩).wellFormed = true := by decide
theorem test_wellFormed_ignores_unused_aw : (Instr.decr ⟨3, 1, 0, 0, 0, 0⟩).wellFormed = true := by decide

/-! ### Decoding: words written out as `RSV1 OPB OPA RSV0 DW AW OP` from R71 and R75 -/

theorem test_decode_encw : decode (0#16 ++ 0x04E2#16 ++ 0x0340#16 ++ 0#8 ++ 0b10#2 ++ 0b10#2 ++ 0b0001#4) =
    .ok (.encw ⟨2, 2, 0, 0x0340, 0x04E2, 0⟩) := by decide
theorem test_decode_enca : decode (0#16 ++ 0#16 ++ 0x0016#16 ++ 0#8 ++ 0b00#2 ++ 0b10#2 ++ 0b0010#4) =
    .ok (.enca ⟨2, 0, 0, 0x0016, 0, 0⟩) := by decide
theorem test_decode_decr : decode 0x0000000000000043#64 = .ok (.decr ⟨0, 1, 0, 0, 0, 0⟩) := by decide
theorem test_decode_wrs : decode 0x0000BEEF01FF0094#64 = .ok (.wrs ⟨1, 2, 0, 0x01FF, 0xBEEF, 0⟩) := by decide
theorem test_decode_rd : decode 0x0000000000050055#64 = .ok (.rd ⟨1, 1, 0, 5, 0, 0⟩) := by decide
theorem test_decode_wseq : decode 0x000000033E000026#64 = .ok (.wseq ⟨2, 0, 0, 0x3E00, 3, 0⟩) := by decide
theorem test_decode_wtbl : decode 0x00000005000C0067#64 = .ok (.wtbl ⟨2, 1, 0, 12, 5, 0⟩) := by decide
theorem test_decode_wtbls : decode 0x0000000000030028#64 = .ok (.wtbls ⟨2, 0, 0, 3, 0, 0⟩) := by decide
theorem test_decode_wall : decode 0x0000000200030029#64 = .ok (.wall ⟨2, 0, 0, 3, 2, 0⟩) := by decide
/-- X5: the reserved fields land in their own fields. -/
theorem test_decode_reserved_fields :
    decode 0x0001000100010084#64 = .ok (.wrs ⟨0, 2, 0, 1, 1, 1⟩) ∧
    decode 0x00000001000101A4#64 = .ok (.wrs ⟨2, 2, 1, 1, 1, 0⟩) := by decide
/-- X1, X2, X3. -/
theorem test_decode_reserved_opcodes :
    decode 0#64 = .error (.reservedOpcode 0) ∧ decode 0xF#64 = .error (.reservedOpcode 0xF) ∧
    decode 0x10A#64 = .error (.reservedOpcode 0xA) := by decide
theorem test_decodeTableWord :
    decodeTableWord 64 0x0000000200000029 = some (.wall ⟨2, 0, 0, 0, 2, 0⟩) ∧
    decodeTableWord 8 0x83 = some (.decr ⟨0, 2, 0, 0, 0, 0⟩) ∧ decodeTableWord 64 0xA = none := by decide
/-- R84. -/
theorem test_asmText : asmText (.wrs 2 1 0x0100 0x01) = "WRS.W.B 256, 1" := by decide

/-! ### Codec functions: V3, V5, V6, V11, V12, V15 -/

theorem test_encodeWrite : encodeWrite 2 0x1234 1 0xABCD = some [0x12, 0x34, 0xCD] := by decide
theorem test_encodeWrite_illegal : encodeWrite 2 0x1234 3 0xABCD = none := by decide
theorem test_encodeAddress_drops_high : encodeAddress 1 0x0100 = some [0x00] := by decide
theorem test_decodeRead : decodeRead 2 [0x01, 0x02] = some 0x0102 ∧ decodeRead 1 [0x01, 0x02] = none := by decide
theorem test_decodeRead_illegal : decodeRead 0 [0x01] = none ∧ decodeRead 2 [] = none := by decide
theorem test_packFrame : packFrame [0x03, 0x40, 0x04, 0xE2] = (0xE2044003, 4) := by decide

/-! ### One step of each command -/

/-- C1. -/
theorem test_encw_c1 : after (step (launched 0x000004E2034000A1 base)) (fun t => (t.frame, t.frameLen, t.err, t.eng)) =
    some (0xE2044003, 4, .ok, .idle) := by decide
/-- C5. -/
theorem test_encw_c5 : after (step (launched 0x0000002000100041 base)) (fun t => (t.frame, t.frameLen, t.err)) =
    some (0, 0, .invalidWidth) := by decide
/-- C7. -/
theorem test_enca_c7 : after (step (launched 0x0000000001000012 { base with frame := 0x77777777 }))
    (fun t => (t.frame, t.frameLen, t.err)) = some (0, 1, .ok) := by decide
/-- C9: an illegal `DW` is ignored. -/
theorem test_enca_c9 : after (step (launched 0x00000000FFFF00E2 base)) (fun t => (t.frame, t.frameLen, t.err)) =
    some (0x0000FFFF, 2, .ok) := by decide
/-- C10. -/
theorem test_decr_c10 : after (step (launched 0x83 { base with frame := 0x00000201, frameLen := 2 }))
    (fun t => (t.rdata, t.err)) = some (0x0102, .ok) := by decide
/-- C12. -/
theorem test_decr_c12 : after (step (launched 0x43 { base with frame := 0x00000201, frameLen := 2, rdata := 0x7777 }))
    (fun t => (t.rdata, t.err)) = some (0x7777, .invalidWidth) := by decide
/-- B1. -/
theorem test_wrs_b1 : after (step (launched 0x0000000101000064 base)) (fun t => (t.req, t.txnCount, t.eng)) =
    some (some ⟨0x36, [0x01, 0x00, 0x01], 0⟩, 1, .waitBus) := by decide
/-- B5: a byte returned for a write is a failure. -/
theorem test_wrs_b5 : after (step { waiting 0x0000000101000064 ⟨0x36, [1, 0, 1], 0⟩ base with agenda := [.transport (.ok [0])] })
    (fun t => (t.eng, t.trace)) =
    some (.exec (.answered .fail), [.txn ⟨0x36, [1, 0, 1], 0⟩ (some (.ok [0]))]) := by decide
/-- B6. -/
theorem test_rd_b6 : after (step (launched 0xA5 base)) (fun t => t.req) = some (some ⟨0x36, [0x00, 0x00], 2⟩) := by decide
/-- B6, after the answer. -/
theorem test_rd_b6_answered : after (step (answered 0xA5 (.ok [0x00, 0x58]) base)) (fun t => (t.rdata, t.err, t.eng)) =
    some (0x0058, .ok, .idle) := by decide
/-- B12. -/
theorem test_wseq_b12 : after (step (launched 0x000000033E000026 base)) (fun t => t.req) =
    some (some ⟨0x36, [0x3E, 0x00, 0x11, 0x22, 0x33], 0⟩) := by decide
/-- B14: the width comes before the count. -/
theorem test_wseq_b14 : after (step (launched 0x000000003E000006 base)) (fun t => (t.err, t.txnCount)) =
    some (.invalidWidth, 0) := by decide
/-- T2: the third write fails. -/
theorem test_wtbl_t2 : after (step (answered 0x0000000500000067 .fail { base with entDone := 2, cur := ⟨0, 2⟩ }))
    (fun t => (t.err, t.entDone, t.eng)) = some (.transportFailure, 2, .idle) := by decide
/-- T3. -/
theorem test_wtbl_t3 : after (step (launched 0x00000005000C0067 base)) (fun t => (t.err, t.eng)) =
    some (.invalidArgument, .idle) := by decide
/-- T15. -/
theorem test_wtbls_t15 : after (step (launched 0x0000000000040028 base)) (fun t => (t.err, t.eng)) =
    some (.invalidArgument, .idle) := by decide
/-- T18 with `SETTLE_AFTER_FAILURE`: 21 ms is coarse. -/
theorem test_wtbls_t18 :
    after (step (launched 0x0000000000030028 { base with params := ⟨15, 3, 7, .ok, .ok, true⟩ }))
      (fun t => (t.eng, t.tier, t.settleMs, t.pend)) = some (.settle, true, 21, .invalidWidth) := by decide
/-- T14: an empty list, before the range. -/
theorem test_wall_t14 : after (step (launched 0x0000000000090029 { base with params := ⟨15, 3, 7, .ok, .invalidArgument, false⟩ }))
    (fun t => (t.err, t.eng)) = some (.invalidArgument, .idle) := by decide
/-- T8: the second table follows the first one's wait. -/
theorem test_wall_t8 : after (step { base with lcmd := 0x0000000200000029, eng := .exec .settled, entDone := 2, cur := ⟨0, 2⟩ })
    (fun t => (t.req, t.tblDone, t.entDone, t.cur)) =
    some (some ⟨0x36, [0x03, 0x40, 0x04, 0x7E], 0⟩, 1, 0, ⟨1, 0⟩) := by decide
/-- X3: the opcode comes before the reserved fields. -/
theorem test_reserved_x3 : after (step (launched 0x10A base)) (fun t => (t.err, t.eng)) =
    some (.genericFailure, .idle) := by decide
/-- R194: an element nothing has written stops the model. -/
theorem test_unwritten : faultOf (step (launched 0x0000000200040067 base)) = some (.unwrittenTmem 4) := by decide
/-- P5: `STATUS` reads 0x0C with `OVR` and `TIER`, and 0x07 in a coarse wait; P2: 0x30. -/
theorem test_status_word :
    statusWord { base with ovr := true, tier := true } = 0x0C ∧
    statusWord { base with eng := .settle, tier := true } = 0x07 ∧
    statusWord { base with err := .transportFailure } = 0x30 := by decide
/-- P5: a launch while busy is discarded. -/
theorem test_busy_launch :
    after (step { settling 0x28 0 base with agenda := [.host (.writeReg 4 1)] }) (fun t => (t.ovr, t.cmdHi, t.lcmd)) =
      some (true, 0, 0x28) := by decide

/-- R41: after the last entry the cursor and `ENT_DONE` are both the number of entries. -/
theorem test_cursor_past_last_entry :
    after (nextEntry 2 1 0 2 finishTbl (.ok []) { base with entDone := 1, cur := ⟨0, 1⟩ }) (fun t => (t.entDone, t.cur)) =
      some (2, ⟨0, 2⟩) := by decide
/-- R190, R69: a reset 1 ms into a wait of 5 ms ends it there. -/
theorem test_reset_ends_settle :
    after (step { settling 0x28 1000 base with agenda := [.reset] }) (fun t => (t.eng, t.trace)) =
      some (.idle, [.settle 5 0 (some (.byReset 1000))]) := by decide

/-! ### Witnesses: the hypotheses of each statement, met together -/

theorem witness_EncodeOfDecodedIsWord :
    decode 0xFFFFFFFFFFFFFFF9#64 = .ok (.wall ⟨3, 3, 0xFF, 0xFFFF, 0xFFFF, 0xFFFF⟩) ∧
    decode 1#64 = .ok (.encw ⟨0, 0, 0, 0, 0, 0⟩) := by decide

/-- Every opcode value meets exactly one clause's hypothesis. -/
theorem witness_DecodeByOpcodeAlone :
    (0xFFFFFFFFFFFFFFF0#64).extractLsb' 0 4 = 0#4 ∧ (0x1#64).extractLsb' 0 4 = 1#4 ∧
    (0x22#64).extractLsb' 0 4 = 2#4 ∧ (0x43#64).extractLsb' 0 4 = 3#4 ∧ (0x64#64).extractLsb' 0 4 = 4#4 ∧
    (0xA5#64).extractLsb' 0 4 = 5#4 ∧ (0x26#64).extractLsb' 0 4 = 6#4 ∧ (0x67#64).extractLsb' 0 4 = 7#4 ∧
    (0x28#64).extractLsb' 0 4 = 8#4 ∧ (0x29#64).extractLsb' 0 4 = 9#4 ∧
    9#4 < (0xA#64).extractLsb' 0 4 ∧ 9#4 < (0xF#64).extractLsb' 0 4 := by decide

theorem witness_StepRunsDecodedCommand :
    (launched 0xA5 base).eng = .exec .start ∧ decode (launched 0xA5 base).lcmd = .ok (.rd ⟨2, 2, 0, 0, 0, 0⟩) ∧
    (launched 0xA5 base).agenda = [] ∧
    ({ launched 0xA5 base with agenda := [.engine, .reset] } : State).agenda = .engine :: [.reset] := by decide

theorem witness_FetchedWordRunsNext :
    decode (BitVec.ofNat 64 0x0000000200000029) = .ok (.wall ⟨2, 0, 0, 0, 2, 0⟩) := by decide

/-- Every pair of width codes meets one clause on the address and one on the write frame. -/
theorem witness_FrameLayouts : ∀ aw dw : WidthCode,
    (aw = 1#2 ∨ aw = 2#2 ∨ aw = 0#2 ∨ aw = 3#2) ∧
    ((aw = 1#2 ∧ dw = 1#2) ∨ (aw = 1#2 ∧ dw = 2#2) ∨ (aw = 2#2 ∧ dw = 1#2) ∨ (aw = 2#2 ∧ dw = 2#2) ∨
      aw = 0#2 ∨ aw = 3#2 ∨ dw = 0#2 ∨ dw = 3#2) := by decide

/-- Lengths one below and one above the exact one meet the last clause. -/
theorem witness_DecodeReadExactLength :
    (let dw : WidthCode := 1#2; ∀ bytes ∈ [[], [1#8, 2#8]], ¬ (dw = 1#2 ∧ bytes.length = 1) ∧ ¬ (dw = 2#2 ∧ bytes.length = 2)) ∧
    (let dw : WidthCode := 2#2; ∀ bytes ∈ [[1#8], [1#8, 2#8, 3#8]], ¬ (dw = 1#2 ∧ bytes.length = 1) ∧ ¬ (dw = 2#2 ∧ bytes.length = 2)) ∧
    (let dw : WidthCode := 3#2; ¬ (dw = 1#2 ∧ [1#8].length = 1) ∧ ¬ (dw = 2#2 ∧ [1#8].length = 2)) := by decide

theorem witness_FramePacking :
    ([] : List Byte).length ≤ 4 ∧ ([1, 2, 3, 4] : List Byte).length ≤ 4 ∧ (0#3).toNat ≤ 4 ∧ (4#3).toNat ≤ 4 ∧
    4 < (5#3).toNat ∧ 4 < (7#3).toNat := by decide

/-- Each codec command, and a failing one. -/
theorem witness_CodecCommandFrame :
    (∃ t, exec (.encw ⟨2, 2, 0, 1, 2, 0⟩) (launched 0 base) = .next t ∧ t.err = .ok) ∧
    (∃ t, exec (.enca ⟨1, 0, 0, 1, 2, 0⟩) (launched 0 base) = .next t ∧ t.err = .ok) ∧
    (∃ t, exec (.decr ⟨0, 1, 0, 0, 0, 0⟩) (launched 0 { base with frameLen := 1#3 }) = .next t ∧ t.err = .ok) ∧
    (∃ t, exec (.encw ⟨0, 2, 0, 1, 2, 0⟩) (launched 0 base) = .next t ∧ t.err ≠ .ok) :=
  ⟨⟨_, rfl, rfl⟩, ⟨_, rfl, rfl⟩, ⟨_, rfl, rfl⟩, ⟨_, rfl, by decide⟩⟩

/-- A state at a command's start, for every statement about one (`WRS`, `RD`, `WSEQ`, `WTBL`, `WTBLS`,
`WALL`). -/
theorem witness_start :
    (launched 0x64 base).eng = .exec .start ∧ (launched 0xA5 base).eng = .exec .start ∧
    (launched 0x26 base).eng = .exec .start ∧ (launched 0x67 base).eng = .exec .start ∧
    (launched 0x28 base).eng = .exec .start ∧ (launched 0x29 base).eng = .exec .start := by decide

theorem witness_WriteCommandsComplete :
    (answered 0x64 .fail base).eng = .exec (.answered .fail) ∧
    (answered 0x26 (.ok []) base).eng = .exec (.answered (.ok [])) := by decide

theorem witness_RdCompletes :
    (answered 0xA5 .fail base).eng = .exec (.answered .fail) ∧
    ((answered 0x55 (.ok [7]) base).eng = .exec (.answered (.ok [7])) ∧ (⟨1, 1, 0, 0, 0, 0⟩ : Fields).dw = 1#2) ∧
    ((answered 0xA5 (.ok [7, 8]) base).eng = .exec (.answered (.ok [7, 8])) ∧ (⟨2, 2, 0, 0, 0, 0⟩ : Fields).dw = 2#2) := by decide

/-- `SEQBUF` with all eight bytes written. -/
def fullSeq : State := { base with seqbuf := [(0, 0), (1, 1), (2, 2), (3, 3), (4, 4), (5, 5), (6, 6), (7, 7)] }

/-- Counts 0, 8 (the longest) and 9 (too long), an unwritten first byte, and one after written bytes. -/
theorem witness_WseqIssuesBurst :
    ((⟨1, 0, 0, 0, 0, 0⟩ : Fields).opb = 0#16 ∧ base.params.seqMax < (⟨1, 0, 0, 0, 9, 0⟩ : Fields).opb.toNat ∧
      (⟨1, 0, 0, 0, 8, 0⟩ : Fields).opb.toNat ≤ fullSeq.params.seqMax) ∧
    (([0, 1, 2, 3, 4, 5, 6, 7] : List Byte).length = (⟨1, 0, 0, 0, 8, 0⟩ : Fields).opb.toNat ∧
      ∀ j (h : j < ([0, 1, 2, 3, 4, 5, 6, 7] : List Byte).length),
        memRead fullSeq.seqbuf (0 + j) = some ([0, 1, 2, 3, 4, 5, 6, 7] : List Byte)[j]) ∧
    memRead State.reset.seqbuf 0 = none ∧
    (memRead base.seqbuf 3 = none ∧ ∀ k, k < 3 → memRead base.seqbuf k ≠ none) := by decide

/-- A write waiting for the transport. -/
def waitWrite : State := waiting 0x0000000101000064 ⟨0x36, [1, 0, 1], 0⟩ base

theorem witness_TransactIssuesAndJudges :
    ({ waitWrite with agenda := [.transport (.ok [])] } : State).agenda = .transport (.ok []) :: [] ∧
    waitWrite.eng = .waitBus ∧ waitWrite.req = some ⟨0x36, [1, 0, 1], 0⟩ ∧
    waitWrite.trace = .txn ⟨0x36, [1, 0, 1], 0⟩ none :: [] := by decide

/-- An engine's turn, the clock, and a host write while waiting. -/
theorem witness_WaitsForTheTransport :
    waitWrite.eng = .waitBus ∧ waitWrite.turn = .engine ∧
    ({ waitWrite with agenda := [.time 9] } : State).turn = .time 9 ∧
    ({ waitWrite with agenda := [.host (.writeReg 4 0)] } : State).turn = .host (.writeReg 4 0) := by decide

theorem witness_BusCommandFrame :
    (∃ t, exec (.wrs ⟨2, 1, 0, 1, 1, 0⟩) (launched 0 base) = .next t) ∧
    (∃ t, exec (.wseq ⟨1, 0, 0, 1, 3, 0⟩) (launched 0 base) = .next t) ∧
    (∃ t, exec (.rd ⟨1, 1, 0, 1, 0, 0⟩) (answered 0 (.ok [0xA7]) base) = .next t ∧ t.rdata ≠ base.rdata) :=
  ⟨⟨_, rfl⟩, ⟨_, rfl⟩, ⟨_, rfl, by decide⟩⟩

theorem witness_WtblContinues :
    (answered 0x67 (.ok []) base).eng = .exec (.answered (.ok [])) ∧
    ((⟨2, 1, 0, 0, 5, 0⟩ : Fields).aw = 1#2 ∨ (⟨2, 1, 0, 0, 5, 0⟩ : Fields).aw = 2#2) ∧
    ((⟨2, 1, 0, 0, 5, 0⟩ : Fields).dw = 1#2 ∨ (⟨2, 1, 0, 0, 5, 0⟩ : Fields).dw = 2#2) := by decide

theorem witness_PlayTableStarts :
    ((1#2 : WidthCode) = 1#2 ∨ (1#2 : WidthCode) = 2#2) ∧ ((2#2 : WidthCode) = 1#2 ∨ (2#2 : WidthCode) = 2#2) := by decide

/-- Both a first entry's success and a failure, under both commands' conditions. -/
theorem witness_TableEntryAnswered :
    (answered 0x28 .fail { base with desc := 0x0001000500020000 }).eng = .exec (.answered .fail) ∧
    (answered 0x29 (.ok []) { base with desc := 0x0001000500020000 }).eng = .exec (.answered (.ok [])) ∧
    ((⟨2, 0, 0, 0, 0, 0⟩ : Fields).aw = 1#2 ∨ (⟨2, 0, 0, 0, 0, 0⟩ : Fields).aw = 2#2) ∧
    (descDw 0x0001000500020000 = 1#2 ∨ descDw 0x0001000500020000 = 2#2) := by decide

/-- For `WTBLS` and `WALL`. -/
theorem witness_settled :
    ({ base with eng := .exec .settled } : State).eng = .exec .settled ∧
    ({ base with eng := .exec .settled, pend := .transportFailure } : State).pend ≠ .ok := by decide

/-- One microsecond before the wait is over and exactly when it is; and a host write in the wait. -/
theorem witness_SettleWaitsAtLeast :
    ((settling 0x28 5000 base).eng = .settle ∧
      (settling 0x28 5000 base).trace = .settle (settling 0x28 5000 base).settleMs (settling 0x28 5000 base).settleT0 none :: [] ∧
      (settling 0x28 5000 base).turn = .engine ∧ settleOver (settling 0x28 5000 base) = true) ∧
    settleOver (settling 0x28 4999 base) = false ∧
    (let s : State := { settling 0x28 0 base with agenda := [.host (.writeReg 4 0)] }
     s.eng = .settle ∧ s.turn ≠ .engine ∧ s.turn ≠ .reset) := by decide

theorem witness_TableCommandFrame :
    (∃ t, exec (.wtbl ⟨2, 1, 0, 0, 2, 0⟩) (launched 0 base) = .next t) ∧
    (∃ t, exec (.wtbls ⟨2, 0, 0, 0, 0, 0⟩) (launched 0 base) = .next t) ∧
    (∃ t, exec (.wall ⟨2, 0, 0, 0, 2, 0⟩) (launched 0 base) = .next t) := ⟨⟨_, rfl⟩, ⟨_, rfl⟩, ⟨_, rfl⟩⟩

/-! ### Witnesses of whole commands -/

/-- The host is about to launch `hi:lo`; then the turns `l` follow. -/
def about (lo hi : Word) (l : List Turn) : State :=
  { base with cmdLo := lo, agenda := .host (.writeReg 4 hi) :: .engine :: l }

theorem witness_WrsWholeCommand :
    let s := about 0x01000064 1 [.transport .fail, .engine]
    let f : Fields := ⟨2, 1, 0, 0x0100, 0x0001, 0⟩
    s.eng = .idle ∧ decode (1#32 ++ s.cmdLo) = .ok (.wrs f) ∧ (Instr.wrs f).wellFormed = true ∧
      encodeWrite f.aw f.opa f.dw f.opb = some [0x01, 0x00, 0x01] ∧
      s.agenda = .host (.writeReg 0x04 1) :: .engine :: .transport .fail :: .engine :: [] := by decide

theorem witness_RdWholeCommand :
    let s := about 0x000000A5 0 [.transport (.ok [0x00, 0x58]), .engine]
    let f : Fields := ⟨2, 2, 0, 0, 0, 0⟩
    s.eng = .idle ∧ decode (0#32 ++ s.cmdLo) = .ok (.rd f) ∧ (Instr.rd f).wellFormed = true ∧
      encodeAddress f.aw f.opa = some [0x00, 0x00] ∧
      s.agenda = .host (.writeReg 0x04 0) :: .engine :: .transport (.ok [0x00, 0x58]) :: .engine :: [] := by decide

theorem witness_WseqWholeCommand :
    let s := about 0x3E000026 3 [.transport (.ok []), .engine]
    let f : Fields := ⟨2, 0, 0, 0x3E00, 3, 0⟩
    let data : List Byte := [0x11, 0x22, 0x33]
    s.eng = .idle ∧ decode (3#32 ++ s.cmdLo) = .ok (.wseq f) ∧ (Instr.wseq f).wellFormed = true ∧
      encodeAddress f.aw f.opa = some [0x3E, 0x00] ∧ data.length = f.opb.toNat ∧ data ≠ [] ∧
      f.opb.toNat ≤ s.params.seqMax ∧ (∀ j (h : j < data.length), memRead s.seqbuf (0 + j) = some data[j]) ∧
      s.agenda = .host (.writeReg 0x04 3) :: .engine :: .transport (.ok []) :: .engine :: [] := by decide

theorem witness_WtblAppliesWholeTable :
    let es : List Word := [0x01000001, 0x01030001]
    let s := about 0x00000067 2 (okTurns 2)
    let f : Fields := ⟨2, 1, 0, 0, 2, 0⟩
    s.eng = .idle ∧ decode (2#32 ++ s.cmdLo) = .ok (.wtbl f) ∧ (Instr.wtbl f).wellFormed = true ∧
      f.opa.toNat + f.opb.toNat ≤ s.params.tmemEntries ∧ es.length = f.opb.toNat ∧ es ≠ [] ∧
      (∀ j (h : j < es.length), memRead s.tmem (f.opa.toNat + j) = some es[j]) ∧
      s.agenda = .host (.writeReg 0x04 2) :: .engine :: (okTurns es.length ++ []) := by decide

theorem witness_WtblStopsAtFirstFailure :
    let es : List Word := [0x01000001, 0x01030001]
    let e : Word := 0x0340047E
    let s := about 0x00000067 5 (okTurns 2 ++ [.transport .fail, .engine])
    let f : Fields := ⟨2, 1, 0, 0, 5, 0⟩
    s.eng = .idle ∧ decode (5#32 ++ s.cmdLo) = .ok (.wtbl f) ∧ (Instr.wtbl f).wellFormed = true ∧
      f.opa.toNat + f.opb.toNat ≤ s.params.tmemEntries ∧ es.length < f.opb.toNat ∧
      (∀ j (h : j < (es ++ [e]).length), memRead s.tmem (f.opa.toNat + j) = some (es ++ [e])[j]) ∧
      s.agenda = .host (.writeReg 0x04 5) :: .engine :: (okTurns es.length ++ .transport .fail :: .engine :: []) := by decide

/-- Table 0 of the vectors, its wait 6 ms long. -/
def run0 : TableRun := ⟨0x0001000500020000, [0x01000001, 0x01030001], 6000⟩
/-- Table 1, its wait exactly 50 ms long. -/
def run1 : TableRun := ⟨0x0002003200010002, [0x0340047E], 50000⟩
/-- Table 2, which is empty. -/
def run2 : TableRun := ⟨0x0001001400000003, [], 20000⟩

/-- The three tables can be applied in any state with the vectors' memories. -/
theorem runs_fit (lo hi : Word) (l : List Turn) : ∀ r ∈ [run0, run1, run2], r.fits (about lo hi l) := by
  have h : ∀ r ∈ [run0, run1, run2], (descDw r.d = 1#2 ∨ descDw r.d = 2#2) ∧
      (descBase r.d).toNat + (descCount r.d).toNat ≤ base.params.tmemEntries ∧
      r.es.length = (descCount r.d).toNat ∧
      (∀ j (h : j < r.es.length), memRead base.tmem ((descBase r.d).toNat + j) = some r.es[j]) ∧
      (descDelay r.d).toNat * 1000 ≤ r.dt := by decide
  intro r hr
  obtain ⟨h1, h2, h3, h4, h5⟩ := h r hr
  exact ⟨h1, h2, h3, h4, fun _ => rfl, h5⟩

theorem witness_WtblsAppliesTableAndSettles :
    let s := about 0x00000028 0 run0.turns
    let f : Fields := ⟨2, 0, 0, 0, 0, 0⟩
    (s.eng = .idle ∧ decode (0#32 ++ s.cmdLo) = .ok (.wtbls f) ∧ (Instr.wtbls f).wellFormed = true ∧
      f.opa.toNat < s.params.tdescEntries ∧ memRead s.tdesc f.opa.toNat = some run0.d ∧
      s.agenda = .host (.writeReg 0x04 0) :: .engine :: (run0.turns ++ [])) ∧ run0.fits s :=
  ⟨by decide, runs_fit _ _ _ run0 (by simp)⟩

theorem witness_WallAppliesTablesInOrder :
    let rs := [run0, run1, run2]
    let s := about 0x00000029 3 (tablesTurns rs)
    let f : Fields := ⟨2, 0, 0, 0, 3, 0⟩
    (s.eng = .idle ∧ decode (3#32 ++ s.cmdLo) = .ok (.wall f) ∧ (Instr.wall f).wellFormed = true ∧
      f.opa.toNat + f.opb.toNat ≤ s.params.tdescEntries ∧ rs.length = f.opb.toNat ∧ rs ≠ [] ∧
      (∀ j (h : j < (rs.map TableRun.d).length), memRead s.tdesc (f.opa.toNat + j) = some (rs.map TableRun.d)[j]) ∧
      s.agenda = .host (.writeReg 0x04 3) :: .engine :: (tablesTurns rs ++ [])) ∧ ∀ r ∈ rs, r.fits s :=
  ⟨by decide, runs_fit _ _ _⟩

theorem witness_WallStopsAtFirstFailure :
    let rs := [run0]
    let d : DWord := 0x0002003200010002
    let es : List Word := []
    let e : Word := 0x0340047E
    let s := about 0x00000029 2 (tablesTurns rs ++ [.transport .fail, .engine])
    let f : Fields := ⟨2, 0, 0, 0, 2, 0⟩
    (s.eng = .idle ∧ decode (2#32 ++ s.cmdLo) = .ok (.wall f) ∧ (Instr.wall f).wellFormed = true ∧
      s.params.settleAfterFailure = false ∧ f.opa.toNat + f.opb.toNat ≤ s.params.tdescEntries ∧
      rs.length < f.opb.toNat ∧
      (∀ j (h : j < (rs.map TableRun.d ++ [d]).length), memRead s.tdesc (f.opa.toNat + j) = some (rs.map TableRun.d ++ [d])[j]) ∧
      (descDw d = 1#2 ∨ descDw d = 2#2) ∧ (descBase d).toNat + (descCount d).toNat ≤ s.params.tmemEntries ∧
      es.length < (descCount d).toNat ∧
      (∀ j (h : j < (es ++ [e]).length), memRead s.tmem ((descBase d).toNat + j) = some (es ++ [e])[j]) ∧
      s.agenda = .host (.writeReg 0x04 2) :: .engine ::
        (tablesTurns rs ++ (okTurns es.length ++ .transport .fail :: .engine :: []))) ∧ ∀ r ∈ rs, r.fits s :=
  ⟨by decide, fun r hr => runs_fit _ _ _ r (by simp_all)⟩

/-! ### Witnesses of errors, the host interface and reset -/

theorem witness_ReservedOpcodeGenericFailure :
    ((launched 0 base).eng = .exec .start ∧ (launched 0 base).turn = .engine ∧
      (launched 0 base).lcmd.extractLsb' 0 4 = 0#4) ∧
    ((launched 0x10A base).eng = .exec .start ∧ (launched 0x10A base).turn = .engine ∧
      9#4 < (launched 0x10A base).lcmd.extractLsb' 0 4) ∧
    9#4 < (launched 0xF base).lcmd.extractLsb' 0 4 := by decide

/-- Either reserved field, and an illegal code in either used width field. -/
theorem witness_FieldErrorsComeFirst :
    (launched 0 base).eng = .exec .start ∧
    ((Instr.decr ⟨0, 1, 1, 0, 0, 0⟩).fields.rsv0 ≠ 0#8 ∧ (Instr.wall ⟨0, 1, 0, 0, 0, 0x8000⟩).fields.rsv1 ≠ 0#16) ∧
    (let i := Instr.wtbls ⟨3, 0, 0, 0, 0, 0⟩
     i.fields.rsv0 = 0#8 ∧ i.fields.rsv1 = 0#16 ∧ i.usesAw = true ∧ (i.fields.aw = 0#2 ∨ i.fields.aw = 3#2)) ∧
    (let i := Instr.wtbl ⟨1, 0, 0, 0, 0, 0⟩
     i.fields.rsv0 = 0#8 ∧ i.fields.rsv1 = 0#16 ∧ i.usesDw = true ∧ (i.fields.dw = 0#2 ∨ i.fields.dw = 3#2)) := by decide

/-- Two different commands that agree in what each of the six opcodes reads. -/
theorem witness_IgnoredFieldsNotRead :
    (let f : Fields := ⟨2, 0, 0, 7, 1, 0⟩; let g : Fields := ⟨2, 3, 0, 7, 1, 0⟩
     f ≠ g ∧ f.rsv0 = g.rsv0 ∧ f.rsv1 = g.rsv1 ∧ f.aw = g.aw ∧ f.opa = g.opa ∧ f.opb = g.opb) ∧
    (let f : Fields := ⟨2, 1, 0, 7, 1, 0⟩; let g : Fields := ⟨3, 1, 0, 8, 9, 0⟩
     f ≠ g ∧ f.rsv0 = g.rsv0 ∧ f.rsv1 = g.rsv1 ∧ f.dw = g.dw) ∧
    (let f : Fields := ⟨2, 1, 0, 7, 1, 0⟩; let g : Fields := ⟨2, 1, 0, 7, 9, 0⟩
     f ≠ g ∧ f.rsv0 = g.rsv0 ∧ f.rsv1 = g.rsv1 ∧ f.aw = g.aw ∧ f.dw = g.dw ∧ f.opa = g.opa) := by decide

/-- A completion, and a reset. -/
theorem witness_BusyEndsByCompletionOrReset :
    (let s := launched 0x22 base
     isBusy s = true ∧ ∃ t, step s = .next t ∧ isBusy t = false) ∧
    (let s : State := { waitWrite with agenda := [.reset] }
     isBusy s = true ∧ ∃ t, step s = .next t ∧ isBusy t = false) :=
  ⟨⟨rfl, _, rfl, rfl⟩, ⟨rfl, _, rfl, rfl⟩⟩

theorem witness_CmdHiWriteLaunches :
    (base.eng = .idle ∧ ({ base with agenda := [.host (.writeReg 4 9)] } : State).agenda = .host (.writeReg 0x04 9) :: []) ∧
    (isBusy waitWrite = true ∧
      ({ waitWrite with agenda := [.host (.writeReg 4 9)] } : State).agenda = .host (.writeReg 4 9) :: []) ∧
    (∀ v, HostAction.writeReg 0 5 ≠ .writeReg 0x04 v) :=
  ⟨by decide, by decide, by intro v h; cases h⟩

theorem witness_IdleRegisterWrites : ∀ offset ∈ [0x00, 0x08, 0x0C, 0x10, 0x14, 0x18, 0x1C, 0x20, 0x24, 3],
    base.eng = .idle ∧ offset ≠ 0x04 ∧
    ({ base with agenda := [.host (.writeReg offset 9)] } : State).agenda = .host (.writeReg offset 9) :: [] := by decide

theorem witness_BusyHostAccess : ∀ a ∈ [HostAction.writeReg 8 8, .writeReg 4 0, .writeTmem 0 0, .writeTdesc 0 0, .writeSeq 0 0, .readReg 8],
    isBusy waitWrite = true ∧ ({ waitWrite with agenda := [.host a] } : State).agenda = .host a :: [] := by decide

/-- Misaligned offsets, and the first one past the map. -/
theorem witness_RegisterMapReads : ∀ offset ∈ [1, 0x1E, 0x24, 0x40], offset % 4 ≠ 0 ∨ 0x20 < offset := by decide

theorem witness_ElementMemoryAccess :
    base.params.tmemEntries ≤ 16 ∧ base.params.tdescEntries ≤ 4 ∧ base.params.seqMax ≤ 8 := by decide

/-- A step that stays busy and one that completes. -/
theorem witness_CommandInputsFixedWhileBusy :
    (let s : State := { waitWrite with agenda := [.host (.writeReg 0xC 0)] }
     isBusy s = true ∧ s.turn ≠ .reset ∧ ∃ t, step s = .next t ∧ isBusy t = true) ∧
    (let s := launched 0x22 base
     isBusy s = true ∧ s.turn ≠ .reset ∧ ∃ t, step s = .next t ∧ isBusy t = false) :=
  ⟨⟨rfl, by decide, _, rfl, rfl⟩, ⟨rfl, by decide, _, rfl, rfl⟩⟩

/-- While waiting for the transport, and in a settle wait. -/
theorem witness_ResetEventAnywhere :
    (({ waitWrite with agenda := [.reset] } : State).agenda = .reset :: [] ∧ waitWrite.eng ≠ .settle) ∧
    (let s : State := { settling 0x28 1000 base with agenda := [.reset] }
     s.agenda = .reset :: [] ∧ s.eng = .settle ∧ s.trace = .settle 5 0 none :: []) := by decide

/-- An idle machine with the engine to move, and with another register written. -/
theorem witness_IdleStaysIdle :
    (base.eng = .idle ∧ ¬ base.turn.writesReg 0x04) ∧
    (let s : State := { base with agenda := [.host (.writeReg 0 4)] }
     s.eng = .idle ∧ ¬ s.turn.writesReg 0x04 ∧ s.turn ≠ .reset) := by
  refine ⟨⟨rfl, ?_⟩, rfl, ?_, by decide⟩
  · rintro ⟨v, h⟩; exact absurd h (by simp [State.turn, base, State.reset])
  · rintro ⟨v, h⟩; exact absurd h (by simp [State.turn])

/-! ### Witnesses of the invariants -/

/-- A write waiting for its answer meets the invariant. -/
theorem inv_waitWrite (l : List Turn) : ({ waitWrite with agenda := l } : State).Inv where
  tmemWf := (by decide : Mem.wf waitWrite.tmem)
  tdescWf := (by decide : Mem.wf waitWrite.tdesc)
  seqWf := (by decide : Mem.wf waitWrite.seqbuf)
  tmemIn := (by decide : ∀ e ∈ waitWrite.tmem, e.1 < waitWrite.params.tmemEntries)
  tdescIn := (by decide : ∀ e ∈ waitWrite.tdesc, e.1 < waitWrite.params.tdescEntries)
  seqIn := (by decide : ∀ e ∈ waitWrite.seqbuf, e.1 < waitWrite.params.seqMax)
  reqIff := (by decide : waitWrite.req.isSome = true ↔ waitWrite.eng = .waitBus)
  reqNewest := fun q h => ⟨[], by cases h; rfl⟩
  settleNewest := fun h => by cases h
  settleBegan := fun h => by cases h
  settleTier := fun h => by cases h
  settleCommand := fun h => by rcases h with h | h <;> cases h
  errBusy := fun _ => rfl
  errProducible := rfl
  pendProducible := rfl
  startClean := fun h => by cases h
  entCursor := rfl
  tblCursor := rfl
  entInTable := fun _ => (by decide : waitWrite.cur.ent < tableEntries waitWrite.lcmd waitWrite.desc)
  tblInList := fun _ => (by decide : waitWrite.cur.tbl < listTables waitWrite.lcmd)
  eventsLawful := by
    intro e he
    cases List.mem_singleton.mp he
    exact ⟨by decide, (by decide : 3 ≤ max 4 (2 + waitWrite.params.seqMax)), by decide⟩

theorem witness_StepKeepsInvariant :
    let s : State := { waitWrite with agenda := [.transport (.ok [])] }
    s.Inv ∧ ∃ t, step s = .next t ∧ t.eng = .exec (.answered (.ok [])) :=
  ⟨inv_waitWrite _, _, rfl, rfl⟩

/-- A step that issues nothing and one that issues a transaction. -/
theorem witness_TransactionsCountedOnce :
    (let s : State := { base with agenda := [.time 7] }
     (∃ t, step s = .next t) ∧ s.turn ≠ .reset ∧ ¬ s.turn.writesReg 0x20) ∧
    (let s := launched 0xA5 base
     (∃ t, step s = .next t ∧ t.txnCount = 1) ∧ s.turn ≠ .reset ∧ ¬ s.turn.writesReg 0x20) := by
  refine ⟨⟨⟨_, rfl⟩, by decide, ?_⟩, ⟨_, rfl, rfl⟩, by decide, ?_⟩
  · rintro ⟨v, h⟩; exact absurd h (by simp [State.turn])
  · rintro ⟨v, h⟩; exact absurd h (by simp [State.turn, launched, base, State.reset])

/-- A step of each kind: no event, a new one, an outcome, an end of a wait, a wait ended by reset. -/
theorem witness_HistoryNeverRewritten :
    (∃ t, step base = .next t ∧ t.trace = []) ∧
    (∃ t, step (launched 0xA5 base) = .next t ∧ t.trace = [.txn ⟨0x36, [0, 0], 2⟩ none]) ∧
    (∃ t, step { waitWrite with agenda := [.transport .fail] } = .next t ∧ t.trace = [.txn ⟨0x36, [1, 0, 1], 0⟩ (some .fail)]) ∧
    after (step (settling 0x28 5000 base)) (fun t => t.trace) = some [.settle 5 0 (some (.over 5000))] ∧
    after (step { settling 0x28 1000 base with agenda := [.reset] }) (fun t => t.trace) =
      some [.settle 5 0 (some (.byReset 1000))] :=
  ⟨⟨_, rfl, rfl⟩, ⟨_, rfl, rfl⟩, ⟨_, rfl, rfl⟩, by decide, by decide⟩

/-- The clock moves by nothing, by 7, and not on another turn. -/
theorem witness_ClockNeverDecreases :
    (∃ t, step { base with agenda := [.time 0] } = .next t ∧ t.now = 0) ∧
    (∃ t, step { base with agenda := [.time 7] } = .next t ∧ t.now = 7) ∧
    (∃ t, step base = .next t) ∧ ∀ dt, base.turn ≠ .time dt :=
  ⟨⟨_, rfl, rfl⟩, ⟨_, rfl, rfl⟩, ⟨_, rfl⟩, by intro dt h; exact absurd h (by simp [State.turn, base, State.reset])⟩

/-- A write to each memory changes an element: the last one of each. -/
theorem witness_OnlyTheHostWritesMemories :
    (let s : State := { base with agenda := [.host (.writeTmem 15 1)] }
     s.turn ≠ .reset ∧ ∃ t, step s = .next t ∧ memRead t.tmem 15 ≠ memRead s.tmem 15) ∧
    (let s : State := { base with agenda := [.host (.writeTdesc 3 1)] }
     s.turn ≠ .reset ∧ ∃ t, step s = .next t ∧ memRead t.tdesc 3 ≠ memRead s.tdesc 3) ∧
    (let s : State := { base with agenda := [.host (.writeSeq 7 1)] }
     s.turn ≠ .reset ∧ ∃ t, step s = .next t ∧ memRead t.seqbuf 7 ≠ memRead s.seqbuf 7) :=
  ⟨⟨by decide, _, rfl, by decide⟩, ⟨by decide, _, rfl, by decide⟩, ⟨by decide, _, rfl, by decide⟩⟩

end Sys2Proof.Tests
end

/-! PROOF. Every step keeps `State.Inv` (O56). The states between two lines of a command's rule are held by
two predicates: `MayEnd`, the command may complete here, and `OnTable`, it may also issue or settle here.
Each operation of the rules leads from one of them to the next, or to `State.Inv`. -/

namespace Sys2Proof.Machine

/-! ### What the latched command says of its tables -/

theorem tableEntries_lt (w d : DWord) : tableEntries w d < 65536 := by
  unfold tableEntries
  split <;> omega

theorem listTables_lt (w : DWord) : listTables w < 65536 := by
  unfold listTables
  split <;> omega

theorem tableEntries_of_settlingCommand {w : DWord} (h : settlingCommand w) (d : DWord) :
    tableEntries w d = (descCount d).toNat := by
  obtain ⟨f, h | h⟩ := h <;> simp only [tableEntries, h]

/-- The frame of a write fits every bound of R121. -/
theorem length_encodeWrite {aw dw : WidthCode} {a d : Half} {bs : List Byte}
    (h : encodeWrite aw a dw d = some bs) : 1 ≤ bs.length ∧ bs.length ≤ 4 := by
  obtain ⟨x, y, -, -, rfl⟩ := encodeWrite_some h
  have hx := widthBytes_bounds x
  have hy := widthBytes_bounds y
  simp only [List.length_append, length_busBytes]
  omega

theorem length_encodeAddress {aw : WidthCode} {a : Half} {bs : List Byte}
    (h : encodeAddress aw a = some bs) : 1 ≤ bs.length ∧ bs.length ≤ 2 := by
  obtain ⟨x, -, rfl⟩ := encodeAddress_some h
  simpa only [length_busBytes] using widthBytes_bounds x

@[simp] theorem producible_emptyResult (e : EmptyResult) : (emptyResult e).producible = true := by
  cases e <;> rfl

theorem resumeOf_of_exec {s : State} {r : Resume} (h : s.eng = .exec r) : resumeOf s = r := by
  simp only [resumeOf, h]

/-! ### The two predicates -/

/-- Between two lines of a command's rule: to complete here would leave the invariant. -/
structure State.MayEnd (s : State) : Prop where
  errOk : s.err = .ok
  inv : (s.complete .ok).Inv

/-- Between two lines of a command's rule, on a table of the command's list (R41): to issue a transaction
or to settle here would leave the invariant. -/
structure State.OnTable (s : State) : Prop extends s.MayEnd where
  tblInList : s.cur.tbl < listTables s.lcmd

/-- With no request outstanding, a completion leaves the invariant (R173). -/
theorem State.Inv.complete {s : State} (h : s.Inv) (hq : s.req = none) {code : Result}
    (hc : code.producible = true) : (s.complete code).Inv :=
  { h with
    reqIff := by simp [hq]
    settleNewest := by simp
    settleBegan := by simp
    settleTier := by simp
    settleCommand := by simp [Eng.inSettle]
    errBusy := by simp [isBusy_eq_true]
    errProducible := hc
    startClean := by simp
    entInTable := by simp [Eng.onBus]
    tblInList := by simp [Eng.onBus, Eng.inSettle] }

/-- The engine executes a command in a state of the invariant. -/
theorem State.Inv.mayEnd {s : State} {r : Resume} (h : s.Inv) (he : s.eng = .exec r) : s.MayEnd where
  errOk := h.errBusy (by simp [isBusy_eq_true, he])
  inv := h.complete (by simpa [he] using h.reqIff) rfl

namespace State.MayEnd

variable {s : State} (h : s.MayEnd)
include h

theorem req_eq_none : s.req = none := by simpa using h.inv.reqIff

theorem complete {code : Result} (hc : code.producible = true) : (s.complete code).Inv :=
  h.inv.complete (code := code) h.req_eq_none hc

theorem setRdata (v : Half) : ({ s with rdata := v } : State).MayEnd :=
  ⟨h.errOk, { h.inv with }⟩

theorem setFrame (v : Word) (n : BitVec 3) : ({ s with frame := v, frameLen := n } : State).MayEnd :=
  ⟨h.errOk, { h.inv with }⟩

theorem setPend {r : Result} (hr : r.producible = true) : ({ s with pend := r } : State).MayEnd :=
  ⟨h.errOk, { h.inv with pendProducible := hr }⟩

/-- The cursor moves and `PROGRESS` with it (R21, R41). -/
theorem moveCursor {e tb : Half} {c : Cursor} (d : DWord) (he : e.toNat = c.ent) (ht : tb.toNat = c.tbl) :
    ({ s with entDone := e, tblDone := tb, cur := c, desc := d } : State).MayEnd :=
  ⟨h.errOk, { h.inv with
    startClean := by simp
    entCursor := he
    tblCursor := ht
    entInTable := by simp [Eng.onBus]
    tblInList := by simp [Eng.onBus, Eng.inSettle] }⟩

/-- Table `j` starts at entry 0 (R143). -/
theorem enterTable (d : DWord) {j : Nat} (hj : s.cur.tbl = j) :
    ({ s with entDone := 0#16, desc := d, cur := { tbl := j, ent := 0 } } : State).MayEnd :=
  h.moveCursor d rfl (hj ▸ h.inv.tblCursor)

theorem passEntry (hb : s.cur.ent + 1 < 65536) : s.passEntry.MayEnd :=
  h.moveCursor s.desc (Nat.mod_eq_of_lt hb) h.inv.tblCursor

theorem passTable {j : Nat} (hb : j + 1 < 65536) : (s.passTable j).MayEnd :=
  h.moveCursor s.desc h.inv.entCursor (Nat.mod_eq_of_lt hb)

end State.MayEnd

/-! ### Issuing and settling -/

/-- Issuing a transaction of a lawful length at an entry of the table leaves the invariant (R120). -/
theorem State.OnTable.transact {s : State} (h : s.OnTable) (he : s.cur.ent < tableEntries s.lcmd s.desc)
    {bs : List Byte} {n : Nat} (hb : 1 ≤ bs.length) (hm : bs.length ≤ max 4 (2 + s.params.seqMax))
    (hn : n ≤ 2) : (s.transact bs n).Inv :=
  { h.inv with
    reqIff := by simp
    reqNewest := fun q hq => ⟨s.trace, Option.some.inj hq ▸ rfl⟩
    settleNewest := by simp
    settleBegan := by simp
    settleTier := by simp
    settleCommand := by simp [Eng.inSettle]
    errBusy := fun _ => h.errOk
    errProducible := by simp [h.errOk, Result.producible]
    startClean := by simp
    entInTable := fun _ => he
    tblInList := fun _ => h.tblInList
    eventsLawful := List.forall_mem_cons.mpr ⟨⟨hb, hm, hn⟩, h.inv.eventsLawful⟩ }

/-- Beginning a settle wait leaves the invariant in a command that settles (R145, R197). -/
theorem State.OnTable.startSettle {s : State} (h : s.OnTable) (hs : settlingCommand s.lcmd) (ms : Half) :
    (s.startSettle ms).Inv :=
  { h.inv with
    reqIff := by simpa using h.inv.reqIff
    reqNewest := by simp [h.req_eq_none]
    settleNewest := fun _ => ⟨s.trace, rfl⟩
    settleBegan := by simp
    settleTier := fun _ => rfl
    settleCommand := fun _ => hs
    errBusy := fun _ => h.errOk
    errProducible := by simp [h.errOk, Result.producible]
    startClean := by simp
    entInTable := by simp [Eng.onBus]
    tblInList := fun _ => h.tblInList
    eventsLawful := List.forall_mem_cons.mpr ⟨trivial, h.inv.eventsLawful⟩ }

theorem checkReserved_inv {f : Fields} {s t : State} {rest : Out} (h : s.MayEnd)
    (hx : checkReserved f s rest = .next t) (hr : rest = .next t → t.Inv) : t.Inv := by
  rcases checkReserved_next hx with rfl | ⟨-, hx⟩
  · exact h.complete rfl
  · exact hr hx

/-! ### The codec and single-transaction commands -/

theorem finishEncode_inv {r : Option (List Byte)} {s t : State} (h : s.MayEnd)
    (hx : finishEncode r s = .next t) : t.Inv := by
  unfold finishEncode at hx
  split at hx <;> cases hx
  · exact h.complete rfl
  · exact (h.setFrame _ _).complete rfl

theorem execDecr_inv {f : Fields} {s t : State} (h : s.MayEnd) (hx : execDecr f s = .next t) : t.Inv := by
  refine checkReserved_inv h hx fun hx => ?_
  split at hx
  · cases hx; exact h.complete rfl
  · split at hx
    · cases hx; exact h.complete rfl
    · split at hx <;> cases hx
      · exact h.complete rfl
      · exact (h.setRdata _).complete rfl

theorem finishWrite_inv {v : Response} {s t : State} (h : s.MayEnd) (hx : finishWrite v s = .next t) :
    t.Inv := by
  rcases finishWrite_next hx with ⟨-, rfl⟩ | ⟨_, -, rfl⟩ <;> exact h.complete rfl

theorem finishRead_inv {dw : WidthCode} {v : Response} {s t : State} (h : s.MayEnd)
    (hx : finishRead dw v s = .next t) : t.Inv := by
  unfold finishRead at hx
  split at hx
  · cases hx; exact h.complete rfl
  · split at hx <;> cases hx
    · exact h.complete rfl
    · exact (h.setRdata _).complete rfl

/-- A command that never settles is at its start or has been answered. -/
theorem State.Inv.resume_cases {s : State} {r : Resume} (h : s.Inv) (he : s.eng = .exec r)
    (hs : ¬ settlingCommand s.lcmd) :
    (∃ v, resumeOf s = .answered v) ∨ (resumeOf s = .start ∧ s.cur = ⟨0, 0⟩) := by
  rw [resumeOf_of_exec he]
  cases r with
  | start => exact .inr ⟨rfl, (h.startClean he).1⟩
  | answered v => exact .inl ⟨v, rfl⟩
  | settled => exact absurd (h.settleCommand (.inr he)) hs

/-- The one transaction of a command without a table, issued from its start. -/
theorem State.MayEnd.transactSingle {s : State} (h : s.MayEnd) (hc : s.cur = ⟨0, 0⟩)
    (hl : listTables s.lcmd = 1) (ht : tableEntries s.lcmd s.desc = 1) {bs : List Byte} {n : Nat}
    (hb : 1 ≤ bs.length) (hm : bs.length ≤ max 4 (2 + s.params.seqMax)) (hn : n ≤ 2) :
    (s.transact bs n).Inv :=
  State.OnTable.transact ⟨h, by simp [hc, hl]⟩ (by simp [hc, ht]) hb hm hn

section SingleTransaction

variable {f : Fields} {s t : State} {r : Resume}

theorem execWrs_inv (h : s.Inv) (he : s.eng = .exec r) (hd : decode s.lcmd = .ok (.wrs f))
    (hx : execWrs f s = .next t) : t.Inv := by
  have hm := h.mayEnd he
  rcases h.resume_cases he (by simp [settlingCommand, hd]) with ⟨v, hr⟩ | ⟨hr, hc⟩ <;>
    simp only [execWrs, hr] at hx
  · exact finishWrite_inv hm hx
  · refine checkReserved_inv hm hx fun hx => ?_
    split at hx <;> cases hx
    · exact hm.complete rfl
    · rename_i bs hbs
      obtain ⟨h1, h4⟩ := length_encodeWrite hbs
      exact hm.transactSingle hc (by simp only [listTables, hd]) (by simp only [tableEntries, hd]) h1
        (le_max_of_le_left h4) (Nat.zero_le 2)

theorem execRd_inv (h : s.Inv) (he : s.eng = .exec r) (hd : decode s.lcmd = .ok (.rd f))
    (hx : execRd f s = .next t) : t.Inv := by
  have hm := h.mayEnd he
  rcases h.resume_cases he (by simp [settlingCommand, hd]) with ⟨v, hr⟩ | ⟨hr, hc⟩ <;>
    simp only [execRd, hr] at hx
  · exact finishRead_inv hm hx
  · refine checkReserved_inv hm hx fun hx => ?_
    split at hx <;> cases hx
    · rename_i bs w hbs hw
      obtain ⟨h1, h2⟩ := length_encodeAddress hbs
      exact hm.transactSingle hc (by simp only [listTables, hd]) (by simp only [tableEntries, hd]) h1
        (le_max_of_le_left (by omega)) (widthBytes_bounds w).2
    · exact hm.complete rfl

theorem execWseq_inv (h : s.Inv) (he : s.eng = .exec r) (hd : decode s.lcmd = .ok (.wseq f))
    (hx : execWseq f s = .next t) : t.Inv := by
  have hm := h.mayEnd he
  rcases h.resume_cases he (by simp [settlingCommand, hd]) with ⟨v, hr⟩ | ⟨hr, hc⟩ <;>
    simp only [execWseq, hr] at hx
  · exact finishWrite_inv hm hx
  · refine checkReserved_inv hm hx fun hx => ?_
    split at hx
    · cases hx; exact hm.complete rfl
    · rename_i bs hbs
      obtain ⟨h1, h2⟩ := length_encodeAddress hbs
      split at hx
      · cases hx; exact hm.complete rfl
      · split at hx
        · cases hx; exact hm.complete rfl
        · split at hx <;> cases hx
          rename_i data hdata
          have hl := memReadMany_length _ _ _ _ hdata
          exact hm.transactSingle hc (by simp only [listTables, hd]) (by simp only [tableEntries, hd])
            (by simp; omega) (by simp [hl]; omega) (Nat.zero_le 2)

end SingleTransaction

/-! ### The register table player -/

section Player

variable {aw dw : WidthCode} {base n i j k : Nat} {done : Result → State → Out} {s t : State}

theorem issueEntry_inv (h : s.OnTable) (hi : s.cur.ent = i) (hn : i < tableEntries s.lcmd s.desc)
    (hx : issueEntry aw dw base i s = .next t) : t.Inv := by
  subst hi
  obtain ⟨e, -, ⟨-, rfl⟩ | ⟨bs, hbs, rfl⟩⟩ := issueEntry_next hx
  · exact h.toMayEnd.complete rfl
  · obtain ⟨h1, h4⟩ := length_encodeWrite hbs
    exact h.transact hn h1 (le_max_of_le_left h4) (Nat.zero_le 2)

/-- A table begun at entry 0 issues that entry, or gives a result at once (R141). -/
theorem beginEntries_inv (h : s.OnTable) (h0 : s.cur.ent = 0) (hn : tableEntries s.lcmd s.desc = n)
    (hdone : ∀ r, r.producible = true → done r s = .next t → t.Inv)
    (hx : beginEntries aw dw base n done s = .next t) : t.Inv := by
  unfold beginEntries at hx
  split at hx
  · exact hdone _ (producible_emptyResult _) hx
  · exact issueEntry_inv h h0 (by omega) hx

/-- After an answer the table goes on to its next entry, or gives its result (R141). -/
theorem nextEntry_inv {v : Response} (h : s.OnTable) (he : s.cur.ent < n)
    (hn : tableEntries s.lcmd s.desc = n)
    (hdone : ∀ r u, u.OnTable → u.lcmd = s.lcmd → r.producible = true → done r u = .next t → t.Inv)
    (hx : nextEntry aw dw base n done v s = .next t) : t.Inv := by
  have hlt := tableEntries_lt s.lcmd s.desc
  have hp : s.passEntry.OnTable := ⟨h.toMayEnd.passEntry (by omega), h.tblInList⟩
  unfold nextEntry at hx
  split at hx
  · exact hdone _ _ h rfl rfl hx
  · split at hx
    · exact issueEntry_inv hp rfl (by simpa [hn]) hx
    · exact hdone _ _ hp rfl rfl hx

theorem endTable_inv {r : Result} (h : s.OnTable) (hs : settlingCommand s.lcmd)
    (hr : r.producible = true) (hx : endTable r s = .next t) : t.Inv := by
  have hp := h.toMayEnd.setPend hr
  rcases endTable_cases r s with ⟨-, e⟩ | ⟨-, -, e⟩ <;> rw [e] at hx <;> cases hx
  · exact State.OnTable.startSettle ⟨hp, h.tblInList⟩ hs _
  · exact hp.complete hr

theorem loadTable_inv (h : s.MayEnd) (hj : s.cur.tbl = j) (hl : j < listTables s.lcmd)
    (hs : settlingCommand s.lcmd) (hx : loadTable aw k j s = .next t) : t.Inv := by
  unfold loadTable at hx
  split at hx
  · cases hx
  · rename_i d _
    have ho : ({ s with entDone := 0#16, desc := d, cur := { tbl := j, ent := 0 } } : State).OnTable :=
      ⟨h.enterTable d hj, hl⟩
    simp only [startTable] at hx
    split at hx
    · exact endTable_inv ho hs rfl hx
    · split at hx
      · exact endTable_inv ho hs rfl hx
      · exact beginEntries_inv ho rfl (tableEntries_of_settlingCommand hs d)
          (fun r hr => endTable_inv ho hs hr) hx

/-- A table of `WTBLS` or `WALL` after an answer (R143). -/
theorem nextTableEntry_inv {v : Response} (h : s.Inv) (he : s.eng = .exec (.answered v))
    (hs : settlingCommand s.lcmd) (hx : nextTableEntry aw v s = .next t) : t.Inv := by
  have hb : s.eng.onBus := .inr ⟨v, he⟩
  have hn := tableEntries_of_settlingCommand hs s.desc
  exact nextEntry_inv ⟨h.mayEnd he, h.tblInList (.inl hb)⟩ (hn ▸ h.entInTable hb) hn
    (fun r u hu hc hr => endTable_inv hu (hc ▸ hs) hr) hx

variable {f : Fields} {r : Resume}

theorem execWtbl_inv (h : s.Inv) (he : s.eng = .exec r) (hd : decode s.lcmd = .ok (.wtbl f))
    (hx : execWtbl f s = .next t) : t.Inv := by
  have hm := h.mayEnd he
  have hn : tableEntries s.lcmd s.desc = f.opb.toNat := by simp only [tableEntries, hd]
  have hl : listTables s.lcmd = 1 := by simp only [listTables, hd]
  cases r with
  | start =>
    obtain ⟨hc, -, -⟩ := h.startClean he
    simp only [execWtbl, resumeOf_of_exec he] at hx
    refine checkReserved_inv hm hx fun hx => ?_
    split at hx
    · cases hx; exact hm.complete rfl
    · split at hx
      · cases hx; exact hm.complete rfl
      · refine beginEntries_inv ⟨hm, by simp [hc, hl]⟩ (by simp [hc]) hn (fun r hr hx => ?_) hx
        cases hx; exact hm.complete hr
  | answered v =>
    have hb : s.eng.onBus := .inr ⟨v, he⟩
    simp only [execWtbl, resumeOf_of_exec he] at hx
    refine nextEntry_inv ⟨hm, h.tblInList (.inl hb)⟩ (hn ▸ h.entInTable hb) hn (fun r u hu _ hr hx => ?_) hx
    cases hx; exact hu.toMayEnd.complete hr
  | settled => exact absurd (h.settleCommand (.inr he)) (by simp [settlingCommand, hd])

theorem execWtbls_inv (h : s.Inv) (he : s.eng = .exec r) (hd : decode s.lcmd = .ok (.wtbls f))
    (hx : execWtbls f s = .next t) : t.Inv := by
  have hm := h.mayEnd he
  have hs : settlingCommand s.lcmd := ⟨f, .inl hd⟩
  cases r with
  | start =>
    obtain ⟨hc, -, -⟩ := h.startClean he
    simp only [execWtbls, resumeOf_of_exec he] at hx
    refine checkReserved_inv hm hx fun hx => ?_
    split at hx
    · cases hx; exact hm.complete rfl
    · split at hx
      · cases hx; exact hm.complete rfl
      · exact loadTable_inv hm (by simp [hc]) (by simp [listTables, hd]) hs hx
  | answered v =>
    simp only [execWtbls, resumeOf_of_exec he] at hx
    exact nextTableEntry_inv h he hs hx
  | settled =>
    simp only [execWtbls, resumeOf_of_exec he] at hx
    split at hx <;> cases hx
    · exact (hm.passTable (by omega)).complete rfl
    · exact hm.complete h.pendProducible

theorem execWall_inv (h : s.Inv) (he : s.eng = .exec r) (hd : decode s.lcmd = .ok (.wall f))
    (hx : execWall f s = .next t) : t.Inv := by
  have hm := h.mayEnd he
  have hs : settlingCommand s.lcmd := ⟨f, .inr hd⟩
  have hl : listTables s.lcmd = f.opb.toNat := by simp only [listTables, hd]
  cases r with
  | start =>
    obtain ⟨hc, -, -⟩ := h.startClean he
    simp only [execWall, resumeOf_of_exec he] at hx
    refine checkReserved_inv hm hx fun hx => ?_
    split at hx
    · cases hx; exact hm.complete rfl
    · split at hx
      · cases hx; exact hm.complete (producible_emptyResult _)
      · split at hx
        · cases hx; exact hm.complete rfl
        · exact loadTable_inv hm (by simp [hc]) (by omega) hs hx
  | answered v =>
    simp only [execWall, resumeOf_of_exec he] at hx
    exact nextTableEntry_inv h he hs hx
  | settled =>
    have hj := h.tblInList (.inr (.inr he))
    have hp : (s.passTable s.cur.tbl).MayEnd :=
      hm.passTable (by have := listTables_lt s.lcmd; omega)
    simp only [execWall, resumeOf_of_exec he] at hx
    split at hx
    · split at hx
      · exact loadTable_inv hp rfl (by simpa [hl]) hs hx
      · cases hx; exact hp.complete rfl
    · cases hx; exact hm.complete h.pendProducible

end Player

/-! ### The turns -/

/-- The engine step of the latched command keeps the invariant. -/
theorem exec_inv {i : Instr} {s t : State} {r : Resume} (h : s.Inv) (he : s.eng = .exec r)
    (hd : decode s.lcmd = .ok i) (hx : exec i s = .next t) : t.Inv := by
  have hm := h.mayEnd he
  cases i with
  | encw f => exact checkReserved_inv hm hx (finishEncode_inv hm)
  | enca f => exact checkReserved_inv hm hx (finishEncode_inv hm)
  | decr f => exact execDecr_inv hm hx
  | wrs f => exact execWrs_inv h he hd hx
  | rd f => exact execRd_inv h he hd hx
  | wseq f => exact execWseq_inv h he hd hx
  | wtbl f => exact execWtbl_inv h he hd hx
  | wtbls f => exact execWtbls_inv h he hd hx
  | wall f => exact execWall_inv h he hd hx

/-- The end of a settle wait that is over: the wait was the newest event and lasted at least its length
(R145). -/
theorem State.Inv.endSettle {s : State} (h : s.Inv) (he : s.eng = .settle) (ho : settleOver s = true) :
    s.endSettle.Inv := by
  obtain ⟨es, ht⟩ := h.settleNewest he
  have hq : s.req = none := by simpa [he] using h.reqIff
  have hl := h.eventsLawful
  rw [ht, List.forall_mem_cons] at hl
  exact { h with
    reqIff := by simp [hq]
    reqNewest := by simp [hq]
    settleNewest := by simp
    settleBegan := by simp
    settleTier := by simp
    settleCommand := fun _ => h.settleCommand (.inl he)
    errBusy := fun _ => h.errBusy (by simp [isBusy_eq_true, he])
    startClean := by simp
    entInTable := by simp [Eng.onBus]
    tblInList := fun _ => h.tblInList (.inr (.inl he))
    eventsLawful := by
      rw [State.endSettle_trace, ht]
      exact List.forall_mem_cons.mpr ⟨⟨h.settleBegan he, (settleOver_iff s).mp ho⟩, hl.2⟩ }

theorem engineTurn_inv {s t : State} (h : s.Inv) (hx : engineTurn s = .next t) : t.Inv := by
  rcases engineTurn_cases hx with ⟨-, rfl⟩ | ⟨he, ho, rfl⟩ | ⟨r, he, ⟨-, -, rfl⟩ | ⟨i, hd, hx⟩⟩
  · exact h
  · exact h.endSettle he ho
  · exact (h.mayEnd he).complete rfl
  · exact exec_inv h he hd hx

/-- A launch on an idle engine keeps the invariant (R40). -/
theorem State.Inv.launch {s : State} (h : s.Inv) (he : s.eng = .idle) (v : Word) : (s.launch v).Inv := by
  have hq : s.req = none := by simpa [he] using h.reqIff
  exact { h with
    reqIff := by simp [hq]
    settleNewest := by simp
    settleBegan := by simp
    settleTier := by simp
    settleCommand := by simp [Eng.inSettle]
    errBusy := fun _ => rfl
    errProducible := rfl
    startClean := fun _ => ⟨rfl, rfl, rfl⟩
    entCursor := rfl
    tblCursor := rfl
    entInTable := by simp [Eng.onBus]
    tblInList := by simp [Eng.onBus, Eng.inSettle] }

theorem State.Inv.hostAct {s : State} (h : s.Inv) (a : HostAction) : (s.hostAct a).Inv := by
  by_cases he : s.eng = .idle
  · rcases hostAct_idle he a with ⟨v, -, e⟩ | ⟨i, v, -, hi, e⟩ | ⟨i, v, -, hi, e⟩ | ⟨i, v, -, hi, e⟩ | ⟨-, e, -⟩
    · rw [e]; exact h.launch he v
    · rw [e]
      exact { h with tmemWf := memWrite_wf _ _ _ h.tmemWf, tmemIn := memWrite_lt _ _ _ _ hi h.tmemIn }
    · rw [e]
      exact { h with tdescWf := memWrite_wf _ _ _ h.tdescWf, tdescIn := memWrite_lt _ _ _ _ hi h.tdescIn }
    · rw [e]
      exact { h with seqWf := memWrite_wf _ _ _ h.seqWf, seqIn := memWrite_lt _ _ _ _ hi h.seqIn }
    · rw [e]; exact { h with }
  · rw [hostAct_busy (isBusy_eq_true.mpr he) a]
    exact { h with }

/-- The answer to the outstanding request is recorded on its event, the newest (R120). -/
theorem State.Inv.answer {s : State} (h : s.Inv) (r : Response) : (s.answer r).Inv := by
  rcases answer_cases s r with ⟨q, he, hq, e⟩ | ⟨-, e⟩ <;> rw [e]
  · obtain ⟨es, ht⟩ := h.reqNewest q hq
    have hl := h.eventsLawful
    rw [ht, List.forall_mem_cons] at hl
    exact { h with
      reqIff := by simp
      reqNewest := by simp
      settleNewest := by simp
      settleBegan := by simp
      settleTier := by simp
      settleCommand := by simp [Eng.inSettle]
      errBusy := fun _ => h.errBusy (by simp [isBusy_eq_true, he])
      startClean := by simp
      entInTable := fun _ => h.entInTable (.inl he)
      tblInList := fun _ => h.tblInList (.inl (.inl he))
      eventsLawful := by
        simp only [ht, recordOutcome]
        exact List.forall_mem_cons.mpr hl }
  · exact h

theorem State.Inv.advance {s : State} (h : s.Inv) (dt : Nat) : (s.advance dt).Inv :=
  { h with settleBegan := fun he => Nat.le_add_right_of_le (h.settleBegan he) }

/-- A reset ends a settle wait no earlier than it began (R190). -/
theorem State.Inv.lawful_cutTrace {s : State} (h : s.Inv) : ∀ e ∈ cutTrace s, e.lawful s.params := by
  by_cases he : s.eng = .settle
  · obtain ⟨es, ht⟩ := h.settleNewest he
    have hl := h.eventsLawful
    rw [ht, List.forall_mem_cons] at hl
    rw [cutTrace_of_settle he ht]
    exact List.forall_mem_cons.mpr ⟨h.settleBegan he, hl.2⟩
  · rw [cutTrace_of_ne he]
    exact h.eventsLawful

theorem State.Inv.resetEvent {s : State} (h : s.Inv) : s.resetEvent.Inv where
  tmemWf := .nil
  tdescWf := .nil
  seqWf := .nil
  tmemIn := by simp
  tdescIn := by simp
  seqIn := by simp
  reqIff := by simp
  reqNewest := by simp
  settleNewest := by simp
  settleBegan := by simp
  settleTier := by simp
  settleCommand := by simp [Eng.inSettle]
  errBusy := fun _ => rfl
  errProducible := rfl
  pendProducible := rfl
  startClean := by simp
  entCursor := rfl
  tblCursor := rfl
  entInTable := by simp [Eng.onBus]
  tblInList := by simp [Eng.onBus, Eng.inSettle]
  eventsLawful := h.lawful_cutTrace

/-- The turns still to come are no part of the invariant. -/
theorem State.Inv.withAgenda {s : State} (h : s.Inv) (l : List Turn) : ({ s with agenda := l } : State).Inv :=
  { h with }

/-- Settles O56: each of the five kinds of turn keeps the invariant. -/
theorem stepKeepsInvariant : Obligations.StepKeepsInvariant := by
  intro s t h hx
  have ha := h.withAgenda s.agenda.tail
  rcases step_cases hx with ⟨-, hx⟩ | ⟨a, -, rfl⟩ | ⟨r, -, rfl⟩ | ⟨dt, -, rfl⟩ | ⟨-, rfl⟩
  · exact engineTurn_inv ha hx
  · exact ha.hostAct a
  · exact ha.answer r
  · exact ha.advance dt
  · exact ha.resetEvent

end Sys2Proof.Machine

/-! PROOF. What a whole step changes and leaves: the end of `BUSY`, the clock, the memories (O45, O59, O60),
and the engine's turn on the latched command (O5, O6). -/

namespace Sys2Proof.Machine

/-! ### What each turn leaves unchanged -/

/-- The engine's turn in an executing state ends as an engine step of a command does, the reserved opcode
included (R76). -/
theorem engineTurn_ends {s t : State} {r : Resume} (he : s.eng = .exec r) (hx : engineTurn s = .next t) :
    EndsAs s t := by
  rcases engineTurn_cases hx with ⟨h | h | ⟨h, -⟩, -⟩ | ⟨h, -, -⟩ | ⟨-, -, ⟨-, -, rfl⟩ | ⟨i, -, hx⟩⟩
  case inr.inr.inl => exact .completed s _ rfl rfl
  case inr.inr.inr => exact exec_ends hx
  all_goals cases he.symm.trans h

/-- What no engine's turn changes. -/
theorem engineTurn_frame {s t : State} (hx : engineTurn s = .next t) :
    t.tmem = s.tmem ∧ t.tdesc = s.tdesc ∧ t.seqbuf = s.seqbuf ∧ t.cmdLo = s.cmdLo ∧ t.cmdHi = s.cmdHi ∧
    t.devAddr = s.devAddr ∧ t.ovr = s.ovr ∧ t.now = s.now ∧ t.lcmd = s.lcmd ∧ t.params = s.params ∧
    t.agenda = s.agenda ∧ t.resets = s.resets := by
  rcases engineTurn_cases hx with ⟨-, rfl⟩ | ⟨-, -, rfl⟩ | ⟨r, he, -⟩
  · exact ⟨rfl, rfl, rfl, rfl, rfl, rfl, rfl, rfl, rfl, rfl, rfl, rfl⟩
  · exact ⟨rfl, rfl, rfl, rfl, rfl, rfl, rfl, rfl, rfl, rfl, rfl, rfl⟩
  · exact (engineTurn_ends he hx).frame

@[simp] theorem State.hostAct_now (s : State) (a : HostAction) : (s.hostAct a).now = s.now := by
  by_cases he : s.eng = .idle
  · rcases hostAct_idle he a with ⟨_, -, e⟩ | ⟨_, _, -, -, e⟩ | ⟨_, _, -, -, e⟩ | ⟨_, _, -, -, e⟩ | ⟨-, e, -⟩ <;>
      rw [e]
    rfl
  · rw [hostAct_busy (isBusy_eq_true.mpr he) a]

/-- Only a write to `CMD_HI` while idle changes the latched command (R40). -/
theorem hostAct_lcmd {s : State} {a : HostAction} (h : isBusy s = true ∨ ∀ v, a ≠ .writeReg 4 v) :
    (s.hostAct a).lcmd = s.lcmd := by
  by_cases he : s.eng = .idle
  · rcases hostAct_idle he a with ⟨v, hv, -⟩ | ⟨_, _, -, -, e⟩ | ⟨_, _, -, -, e⟩ | ⟨_, _, -, -, e⟩ | ⟨-, e, -⟩
    · rcases h with h | h
      · exact absurd he (isBusy_eq_true.mp h)
      · exact absurd hv (h v)
    all_goals rw [e]
  · rw [hostAct_busy (isBusy_eq_true.mpr he) a]

theorem hostAct_eng_of_busy {s : State} (h : isBusy s = true) (a : HostAction) :
    (s.hostAct a).eng = s.eng := by
  rw [hostAct_busy h a]

/-- An answer changes nothing but the engine, the request and the history (R120). -/
theorem State.answer_eq (s : State) (r : Response) :
    s.answer r = { s with eng := (s.answer r).eng, req := (s.answer r).req, trace := (s.answer r).trace } := by
  rcases answer_cases s r with ⟨q, -, -, e⟩ | ⟨-, e⟩ <;> rw [e]

@[simp] theorem State.answer_now (s : State) (r : Response) : (s.answer r).now = s.now := by
  rw [State.answer_eq]

/-- An answer does not end a command: the engine has still to move (R120). -/
theorem answer_eng_ne_idle {s : State} (h : s.eng ≠ .idle) (r : Response) : (s.answer r).eng ≠ .idle := by
  rcases answer_cases s r with ⟨q, -, -, e⟩ | ⟨-, e⟩ <;> rw [e]
  · exact fun hi => by cases hi
  · exact h

/-! ### BUSY, the clock, the memories -/

/-- An engine step that leaves the engine idle is a completion: it issues nothing and adds no event
(R173). -/
theorem EndsAs.of_idle {s t : State} (h : EndsAs s t) (hi : t.eng = .idle) :
    t.txnCount = s.txnCount ∧ t.trace = s.trace := by
  rcases h with ⟨u, c, hu, rfl⟩ | ⟨u, bs, n, -, rfl, -, -⟩ | ⟨u, -, rfl, -⟩
  · rw [hu]; exact ⟨rfl, rfl⟩
  · cases hi
  · cases hi

/-- Settles O45: host actions, answers and time leave a busy engine busy, and an engine's turn that ends it
is a completion. -/
theorem busyEndsByCompletionOrReset : Obligations.BusyEndsByCompletionOrReset := by
  intro s t hb hx hi
  have hne : s.eng ≠ .idle := isBusy_eq_true.mp hb
  rw [isBusy_eq_false] at hi
  rcases step_cases hx with ⟨ht, hx⟩ | ⟨a, -, rfl⟩ | ⟨r, -, rfl⟩ | ⟨dt, -, rfl⟩ | ⟨ht, -⟩
  · rcases engineTurn_cases hx with ⟨-, rfl⟩ | ⟨-, -, rfl⟩ | ⟨r, he, -⟩
    · exact absurd hi hne
    · cases hi
    · have hend := engineTurn_ends he hx
      obtain ⟨hcount, htrace⟩ := hend.of_idle hi
      obtain ⟨htmem, -, -, -, -, hdev, -⟩ := hend.frame
      exact .inr ⟨ht, ⟨r, he⟩, hcount, htrace, htmem, hdev⟩
  · exact absurd ((hostAct_eng_of_busy (s := { s with agenda := s.agenda.tail }) hb a).symm.trans hi) hne
  · exact absurd hi (answer_eng_ne_idle (s := { s with agenda := s.agenda.tail }) hne r)
  · exact absurd hi hne
  · exact .inl ht

/-- Settles O59: of the five kinds of turn only time moves the clock, the reset included (R191). -/
theorem clockNeverDecreases : Obligations.ClockNeverDecreases := by
  intro s t hx
  suffices h : (∃ dt, s.turn = .time dt ∧ t.now = s.now + dt) ∨
      ((∀ dt, s.turn ≠ .time dt) ∧ t.now = s.now) by
    rcases h with ⟨dt, ht, hn⟩ | ⟨ht, hn⟩
    · refine ⟨by omega, fun h => absurd ht (h dt), fun dt' h => ?_⟩
      cases ht.symm.trans h
      exact hn
    · exact ⟨hn.ge, fun _ => hn, fun dt h => absurd h (ht dt)⟩
  rcases step_cases hx with ⟨ht, hx⟩ | ⟨a, ht, rfl⟩ | ⟨r, ht, rfl⟩ | ⟨dt, ht, rfl⟩ | ⟨ht, rfl⟩
  · obtain ⟨-, -, -, -, -, -, -, hn, -⟩ := engineTurn_frame hx
    exact .inr ⟨by simp [ht], hn⟩
  · exact .inr ⟨by simp [ht], by simp⟩
  · exact .inr ⟨by simp [ht], by simp⟩
  · exact .inl ⟨dt, ht, rfl⟩
  · exact .inr ⟨by simp [ht], rfl⟩

/-- A write changes what its own index reads as, and no other. -/
theorem eq_of_memRead_memWrite_ne {α : Type} {m : Mem α} {i j : Nat} {v : α}
    (h : memRead (memWrite m i v) j ≠ memRead m j) : i = j :=
  of_not_not fun hij => h (memRead_memWrite_other m i j v hij)

/-- Settles O60: the engine, the transport and time leave the memories, and a host action changes only the
element it writes. -/
theorem onlyTheHostWritesMemories : Obligations.OnlyTheHostWritesMemories := by
  intro s t hx hr
  have unchanged {α : Type} {m m' : Mem α} {P : Nat → Prop} (h : m' = m) :
      ∀ a, memRead m' a ≠ memRead m a → P a := fun a ha => absurd (by rw [h]) ha
  rcases step_cases hx with ⟨-, hx⟩ | ⟨a, ht, rfl⟩ | ⟨r, -, rfl⟩ | ⟨dt, -, rfl⟩ | ⟨ht, -⟩
  · obtain ⟨htmem, htdesc, hseq, -⟩ := engineTurn_frame hx
    exact ⟨unchanged htmem, unchanged htdesc, unchanged hseq⟩
  · by_cases he : s.eng = .idle
    · rcases hostAct_idle (s := { s with agenda := s.agenda.tail }) he a with
        ⟨v, -, e⟩ | ⟨i, v, rfl, -, e⟩ | ⟨i, v, rfl, -, e⟩ | ⟨i, v, rfl, -, e⟩ | ⟨-, e, -⟩ <;> rw [e]
      · exact ⟨unchanged rfl, unchanged rfl, unchanged rfl⟩
      · refine ⟨fun j hj => ?_, unchanged rfl, unchanged rfl⟩
        cases eq_of_memRead_memWrite_ne hj
        exact ⟨he, v, ht⟩
      · refine ⟨unchanged rfl, fun j hj => ?_, unchanged rfl⟩
        cases eq_of_memRead_memWrite_ne hj
        exact ⟨he, v, ht⟩
      · refine ⟨unchanged rfl, unchanged rfl, fun j hj => ?_⟩
        cases eq_of_memRead_memWrite_ne hj
        exact ⟨he, v, ht⟩
      · exact ⟨unchanged rfl, unchanged rfl, unchanged rfl⟩
    · rw [hostAct_busy (s := { s with agenda := s.agenda.tail }) (isBusy_eq_true.mpr he) a]
      exact ⟨unchanged rfl, unchanged rfl, unchanged rfl⟩
  · rw [State.answer_eq]
    exact ⟨unchanged rfl, unchanged rfl, unchanged rfl⟩
  · exact ⟨unchanged rfl, unchanged rfl, unchanged rfl⟩
  · exact absurd ht hr

/-! ### The latched command -/

theorem takeTurn_engine (s : State) : takeTurn .engine s = engineTurn s := rfl

/-- The engine's turn in an executing state runs the latched command (R40, R75). -/
theorem engineTurn_exec {s : State} {r : Resume} {i : Instr} (he : s.eng = .exec r)
    (hd : decode s.lcmd = .ok i) : engineTurn s = exec i s := by
  simp only [engineTurn, he, hd]

/-- Settles O5: both agendas leave the turn to the engine. -/
theorem stepRunsDecodedCommand : Obligations.StepRunsDecodedCommand := by
  intro s r i he hd
  refine ⟨fun ha => ?_, fun rest ha => ?_⟩
  · rw [step_nil ha, engineTurn_exec he hd]
  · rw [step_cons ha]
    exact engineTurn_exec he hd

/-- The whole of a 64-bit word is what the opcode table's word of 64 bits is. -/
theorem tableWord_64 (w : Nat) : tableWord 64 w = BitVec.ofNat 64 w := by
  apply BitVec.eq_of_toNat_eq
  simp [tableWord]

/-- `CMD_HI:CMD_LO` is the command word (R70). -/
theorem cmdHi_append_cmdLo (w : DWord) : w.extractLsb' 32 32 ++ w.extractLsb' 0 32 = w := by
  rw [BitVec.extractLsb'_append_extractLsb'_eq_extractLsb' (by rfl)]
  exact BitVec.extractLsb'_eq_self

/-- Settles O6: the launch latches the word, and the engine's turn stands first. -/
theorem fetchedWordRunsNext : Obligations.FetchedWordRunsNext := by
  intro s w i hd
  have hl : (s.withFetchWord 64 w).lcmd = BitVec.ofNat 64 w := by
    simp only [State.withFetchWord, State.launch_lcmd, tableWord_64, cmdHi_append_cmdLo]
  rw [step_cons (s := s.withFetchWord 64 w) rfl]
  rw [takeTurn_engine, engineTurn_exec (i := i) rfl (by rw [← hd, ← hl])]
  simp only [State.withFetchWord, State.launch, tableWord_64, cmdHi_append_cmdLo]

end Sys2Proof.Machine

/-! PROOF. The host's accesses: register reads, register writes while idle, the element memories (O46, O47,
O49, O50). -/

namespace Sys2Proof.Machine

/-! ### Register writes while idle -/

/-- While the engine is idle a step on a register write is the write's effect. -/
theorem step_writeReg_idle {s : State} {offset : Nat} {v : Word} {rest : List Turn} (he : s.eng = .idle)
    (ha : s.agenda = .host (.writeReg offset v) :: rest) :
    step s = .next (({ s with agenda := rest } : State).writeRegIdle offset v) := by
  have hb : isBusy ({ s with agenda := rest } : State) = false := isBusy_eq_false.mpr he
  rw [step_cons ha]
  simp only [takeTurn, State.hostAct, State.writeReg, hb, Bool.false_eq_true, if_false]

/-- Settles O46: the launch is the idle write at 0x04, and no other host action latches a command. -/
theorem cmdHiWriteLaunches : Obligations.CmdHiWriteLaunches := by
  refine ⟨fun s v rest he ha => step_writeReg_idle he ha, fun s a rest ha h => ?_⟩
  exact ⟨_, step_cons ha, hostAct_lcmd (s := { s with agenda := rest }) h⟩

/-- Settles O47: the offsets of the map one by one, and every other offset. -/
theorem idleRegisterWrites : Obligations.IdleRegisterWrites := by
  intro s offset v rest he h4 ha
  rw [step_writeReg_idle he ha]
  unfold State.writeRegIdle
  split
  case h_2 => exact absurd rfl h4
  case h_8 h0 _ h8 hC h14 h18 h20 =>
    simp only [if_neg h0, if_neg h8, if_neg hC, if_neg h14, if_neg h18, if_neg h20]
  all_goals rfl

/-! ### Register reads -/

/-- The bits of `STATUS` (R24); above `ERR` they are the bits a 3-bit code does not have, all 0. -/
theorem getLsbD_statusWord (s : State) (k : Nat) :
    (statusWord s).getLsbD k =
      if k = 0 then isBusy s else if k = 1 then isSettling s else if k = 2 then s.tier
      else if k = 3 then s.ovr else (errCode s.err).getLsbD (k - 4) := by
  change BitVec.getLsbD (w := 25 + 3 + 1 + 1 + 1 + 1) (0#25 ++ errCode s.err ++ BitVec.ofBool s.ovr ++
    BitVec.ofBool s.tier ++ BitVec.ofBool (isSettling s) ++ BitVec.ofBool (isBusy s)) k = _
  simp only [BitVec.getLsbD_append, BitVec.getLsbD_ofBool]
  rcases k with _ | _ | _ | _ | k
  case succ.succ.succ.succ =>
    by_cases hk : k < 3
    · simp [hk]
    · simp [hk, BitVec.getLsbD_of_ge _ k (Nat.not_lt.mp hk)]
  all_goals simp

/-- The low bits of a zero-extended value are the value. -/
theorem extractLsb'_setWidth_low {n m : Nat} (x : BitVec n) (h : n ≤ m) :
    (x.setWidth m).extractLsb' 0 n = x := by
  rw [BitVec.extractLsb'_setWidth_of_le (by omega), BitVec.extractLsb'_eq_self]

/-- The bits above a zero-extended value are 0. -/
theorem extractLsb'_setWidth_high {n m k : Nat} (x : BitVec n) :
    (x.setWidth m).extractLsb' n k = 0#k := by
  ext i hi
  simp

theorem isSettling_eq_true {s : State} : isSettling s = true ↔ s.eng = .settle := by
  unfold isSettling; cases s.eng <;> simp

theorem extractLsb'_statusWord_err (s : State) : (statusWord s).extractLsb' 4 3 = errCode s.err := by
  apply BitVec.eq_of_getLsbD_eq
  intro k hk
  have h : 4 + k ≠ 0 ∧ 4 + k ≠ 1 ∧ 4 + k ≠ 2 ∧ 4 + k ≠ 3 := by omega
  simp [getLsbD_statusWord, hk, h]

theorem extractLsb'_statusWord_reserved (s : State) : (statusWord s).extractLsb' 7 25 = 0#25 := by
  apply BitVec.eq_of_getLsbD_eq
  intro k hk
  have h : 7 + k ≠ 0 ∧ 7 + k ≠ 1 ∧ 7 + k ≠ 2 ∧ 7 + k ≠ 3 := by omega
  have hz : (errCode s.err).getLsbD (7 + k - 4) = false := BitVec.getLsbD_of_ge _ _ (by omega)
  simp [getLsbD_statusWord, h, hz]

/-- A misaligned offset, or one past the map, reads 0 (R22). -/
theorem hostReadReg_unmapped (s : State) {offset : Nat} (h : offset % 4 ≠ 0 ∨ 0x20 < offset) :
    hostReadReg s offset = 0#32 := by
  unfold hostReadReg
  split
  case h_10 => rfl
  all_goals omega

/-- Settles O49: each register of the map by its fields, and the unmapped offsets. -/
theorem registerMapReads : Obligations.RegisterMapReads := by
  intro s
  refine ⟨rfl, rfl, ?busy, ?settling, ?tier, ?ovr, extractLsb'_statusWord_err s,
    extractLsb'_statusWord_reserved s, extractLsb'_setWidth_low _ (by decide), extractLsb'_setWidth_high _,
    extractLsb'_setWidth_low _ (by decide), extractLsb'_setWidth_high _, rfl,
    extractLsb'_setWidth_low _ (by decide), extractLsb'_setWidth_high _,
    BitVec.extractLsb'_append_eq_right, BitVec.extractLsb'_append_eq_left, rfl,
    fun _ => hostReadReg_unmapped s⟩
  case busy => rw [← isBusy_eq_true]; exact Eq.congr (getLsbD_statusWord s 0) rfl
  case settling => rw [← isSettling_eq_true]; exact Eq.congr (getLsbD_statusWord s 1) rfl
  case tier => exact getLsbD_statusWord s 2
  case ovr => exact getLsbD_statusWord s 3

/-! ### Element memories -/

/-- What an element in range reads as after a write in range: the read of R34, with `u` the free value of
an element nothing has written and `z` what is read at or beyond the size `n`. -/
theorem getD_memRead_memWrite {α : Type} (m : Mem α) {n i : Nat} (hi : i < n) (j : Nat) (v u z : α) :
    (if j < n then (memRead (memWrite m i v) j).getD u else z) =
      if j = i then v else if j < n then (memRead m j).getD u else z := by
  by_cases hj : j = i
  · subst hj; simp [hi]
  · rw [memRead_memWrite_other _ _ _ _ (Ne.symm hj), if_neg hj]

/-- The frame of a host write to element `i` of a memory of size `n` (R34, R196): a host read that a
discard leaves, and that the write `w` changes at `i` only, takes the value exactly when the write is in
range and the engine idle. -/
theorem hostRead_guardedWrite {α : Type} {s w : State} {n i j : Nat} {v : α} {read : State → α}
    (hdiscard : read s.discard = read s) (hw : i < n → read w = if j = i then v else read s) :
    read (if isBusy s then s.discard else if i < n then w else s) =
      if j = i ∧ i < n ∧ s.eng = .idle then v else read s := by
  split
  case isTrue hb => rw [hdiscard, if_neg fun ⟨_, _, he⟩ => isBusy_eq_true.mp hb he]
  case isFalse hb =>
    have he : s.eng = .idle := isBusy_eq_false.mp (by simpa using hb)
    split
    case isTrue hi => simp only [hw hi, hi, he, and_true]
    case isFalse hi => simp [hi]

theorem hostReadTmem_writeTmem (s : State) (i j : Nat) (v : Word) :
    hostReadTmem (s.writeTmem i v) j =
      if j = i ∧ i < s.params.tmemEntries ∧ s.eng = .idle then v else hostReadTmem s j :=
  hostRead_guardedWrite (read := (hostReadTmem · j)) rfl fun hi => getD_memRead_memWrite s.tmem hi j v _ _

theorem hostReadTdesc_writeTdesc (s : State) (i j : Nat) (d : DWord) :
    hostReadTdesc (s.writeTdesc i d) j =
      if j = i ∧ i < s.params.tdescEntries ∧ s.eng = .idle then d else hostReadTdesc s j :=
  hostRead_guardedWrite (read := (hostReadTdesc · j)) rfl fun hi => getD_memRead_memWrite s.tdesc hi j d _ _

theorem hostReadSeq_writeSeq (s : State) (i j : Nat) (b : Byte) :
    hostReadSeq (s.writeSeq i b) j =
      if j = i ∧ i < s.params.seqMax ∧ s.eng = .idle then b else hostReadSeq s j :=
  hostRead_guardedWrite (read := (hostReadSeq · j)) rfl fun hi => getD_memRead_memWrite s.seqbuf hi j b _ _

/-- Settles O50: the law of each memory, and the reads at or beyond its size. -/
theorem elementMemoryAccess : Obligations.ElementMemoryAccess := fun s i j v d b =>
  ⟨hostReadTmem_writeTmem s i j v, hostReadTdesc_writeTdesc s i j d, hostReadSeq_writeSeq s i j b,
    fun h => if_neg h.not_gt, fun h => if_neg h.not_gt, fun h => if_neg h.not_gt⟩

end Sys2Proof.Machine

/-! PROOF. What a step does to a running command's inputs, to TXN_COUNT and to the history (O51, O57, O58). -/

namespace Sys2Proof.Machine

/-! ### The inputs of a command -/

/-- An engine step that leaves the engine busy has written no result (R65). -/
theorem EndsAs.sameResults_of_busy {s t : State} (h : EndsAs s t) (hb : isBusy t = true) :
    SameResults s t := by
  rcases h with ⟨u, c, -, rfl⟩ | ⟨u, bs, n, -, rfl, -, hf⟩ | ⟨u, -, rfl, hf⟩
  · exact absurd rfl (isBusy_eq_true.mp hb)
  · exact hf
  · exact hf

theorem engineTurn_sameResults_of_busy {s t : State} (hx : engineTurn s = .next t)
    (hb : isBusy t = true) : SameResults s t := by
  rcases engineTurn_cases hx with ⟨-, rfl⟩ | ⟨-, -, rfl⟩ | ⟨r, he, -⟩
  · exact ⟨rfl, rfl, rfl⟩
  · exact ⟨rfl, rfl, rfl⟩
  · exact (engineTurn_ends he hx).sameResults_of_busy hb

/-- Settles O51: the engine writes `FRAME` and `FRAME_LEN` only as it completes, and while it is busy the
host reaches `OVR` alone. -/
theorem commandInputsFixedWhileBusy : Obligations.CommandInputsFixedWhileBusy := by
  intro s t hb hx hr
  rcases step_cases hx with ⟨-, hx⟩ | ⟨a, -, rfl⟩ | ⟨r, -, rfl⟩ | ⟨dt, -, rfl⟩ | ⟨ht, -⟩
  · obtain ⟨htmem, htdesc, hseq, hlo, hhi, hdev, -, -, hlcmd, -⟩ := engineTurn_frame hx
    refine ⟨hdev, htmem, htdesc, hseq, hlo, hhi, hlcmd, fun hbt => ?_⟩
    obtain ⟨-, hframe, hlen⟩ := engineTurn_sameResults_of_busy hx hbt
    exact ⟨hframe, hlen⟩
  · rw [hostAct_busy (s := { s with agenda := s.agenda.tail }) hb a]
    exact ⟨rfl, rfl, rfl, rfl, rfl, rfl, rfl, fun _ => ⟨rfl, rfl⟩⟩
  · rw [State.answer_eq]
    exact ⟨rfl, rfl, rfl, rfl, rfl, rfl, rfl, fun _ => ⟨rfl, rfl⟩⟩
  · exact ⟨rfl, rfl, rfl, rfl, rfl, rfl, rfl, fun _ => ⟨rfl, rfl⟩⟩
  · exact absurd ht hr

/-! ### What each turn does to the history and to TXN_COUNT -/

/-- An engine step of a command issues at most one event: a transaction, which it counts, or a settle
wait (R60, R69). -/
theorem EndsAs.history {s t : State} (h : EndsAs s t) :
    (t.trace = s.trace ∧ t.txnCount = s.txnCount) ∨
    (∃ q, t.trace = .txn q none :: s.trace ∧ t.txnCount = s.txnCount + 1#32) ∨
    (∃ ms t0, t.trace = .settle ms t0 none :: s.trace ∧ t.txnCount = s.txnCount) := by
  rcases h with ⟨u, c, hu, rfl⟩ | ⟨u, bs, n, hu, rfl, -, -⟩ | ⟨u, hu, rfl, -⟩ <;> rw [hu]
  · exact .inl ⟨rfl, rfl⟩
  · exact .inr (.inl ⟨_, rfl, rfl⟩)
  · exact .inr (.inr ⟨_, _, rfl, rfl⟩)

@[simp] theorem State.hostAct_trace (s : State) (a : HostAction) : (s.hostAct a).trace = s.trace := by
  by_cases he : s.eng = .idle
  · rcases hostAct_idle he a with ⟨_, -, e⟩ | ⟨_, _, -, -, e⟩ | ⟨_, _, -, -, e⟩ | ⟨_, _, -, -, e⟩ | ⟨-, e, -⟩ <;>
      rw [e]
    rfl
  · rw [hostAct_busy (isBusy_eq_true.mpr he) a]

/-- Only a write to `TXN_COUNT` is a host action that changes it (R31). -/
theorem hostAct_txnCount {s : State} {a : HostAction} (h : ∀ v, a ≠ .writeReg 0x20 v) :
    (s.hostAct a).txnCount = s.txnCount := by
  by_cases he : s.eng = .idle
  · rcases hostAct_idle he a with
      ⟨_, -, e⟩ | ⟨_, _, -, -, e⟩ | ⟨_, _, -, -, e⟩ | ⟨_, _, -, -, e⟩ | ⟨-, -, ⟨v, hv⟩ | hc⟩
    case inr.inr.inr.inr.inl => exact absurd hv (h v)
    case inr.inr.inr.inr.inr => exact hc
    all_goals rw [e]
    rfl
  · rw [hostAct_busy (isBusy_eq_true.mpr he) a]

@[simp] theorem State.answer_txnCount (s : State) (r : Response) : (s.answer r).txnCount = s.txnCount := by
  rw [State.answer_eq]

/-- An answer fills in the outcome of the newest event, or does nothing to the history (R69, R120). -/
theorem answer_trace_cases (s : State) (r : Response) :
    (∃ q es, s.trace = .txn q none :: es ∧ (s.answer r).trace = .txn q (some r) :: es) ∨
      (s.answer r).trace = s.trace := by
  rcases answer_cases s r with ⟨q, -, -, e⟩ | ⟨-, e⟩ <;> rw [e]
  · exact recordOutcome_cases r s.trace
  · exact .inr rfl

/-! ### Counting transactions -/

@[simp] theorem countTxn_txn (q : Request) (o : Option Response) (es : List Event) :
    countTxn (.txn q o :: es) = countTxn es + 1 := rfl

@[simp] theorem countTxn_settle (ms : Half) (t0 : Nat) (f : Option WaitEnd) (es : List Event) :
    countTxn (.settle ms t0 f :: es) = countTxn es := rfl

/-- The end of a settle wait adds no transaction (R69). -/
theorem countTxn_recordFinish (e : WaitEnd) (l : List Event) :
    countTxn (recordFinish e l) = countTxn l := by
  rcases recordFinish_cases e l with ⟨ms, t0, es, hl, hf⟩ | hf <;> rw [hf]
  simp [hl]

/-- An answer adds no transaction: it belongs to one already counted (R60, R120). -/
theorem countTxn_answer (s : State) (r : Response) : countTxn (s.answer r).trace = countTxn s.trace := by
  rcases answer_trace_cases s r with ⟨q, es, hs, ht⟩ | ht <;> rw [ht]
  simp [hs]

/-- Settles O57: a transaction is issued where it is counted, and what fills in an event adds none. -/
theorem transactionsCountedOnce : Obligations.TransactionsCountedOnce := by
  intro s t hx hr hw
  rcases step_cases hx with ⟨ht, hx⟩ | ⟨a, ht, rfl⟩ | ⟨r, -, rfl⟩ | ⟨dt, -, rfl⟩ | ⟨ht, -⟩
  · rcases engineTurn_cases hx with ⟨-, rfl⟩ | ⟨-, -, rfl⟩ | ⟨r, he, -⟩
    · exact .inl ⟨rfl, rfl⟩
    · exact .inl ⟨countTxn_recordFinish _ _, rfl⟩
    · rcases (engineTurn_ends he hx).history with ⟨htr, hc⟩ | ⟨q, htr, hc⟩ | ⟨ms, t0, htr, hc⟩
      · exact .inl ⟨congrArg countTxn htr, hc⟩
      · exact .inr ⟨congrArg countTxn htr, hc, ht, r, he⟩
      · exact .inl ⟨by simp [htr], hc⟩
  · refine .inl ⟨by simp, hostAct_txnCount fun v hv => hw ⟨v, ?_⟩⟩
    rw [ht, hv]
  · exact .inl ⟨countTxn_answer _ _, by simp⟩
  · exact .inl ⟨rfl, rfl⟩
  · exact absurd ht hr

/-! ### The history only grows -/

/-- Settles O58: the engine's turn adds an event or ends a settle wait, an answer gives the newest event
its outcome, a reset ends a settle wait, and no other turn touches the history. -/
theorem historyNeverRewritten : Obligations.HistoryNeverRewritten := by
  intro s t hx
  rcases step_cases hx with ⟨ht, hx⟩ | ⟨a, -, rfl⟩ | ⟨r, -, rfl⟩ | ⟨dt, -, rfl⟩ | ⟨ht, rfl⟩
  · rcases engineTurn_cases hx with ⟨-, rfl⟩ | ⟨-, -, rfl⟩ | ⟨r, he, -⟩
    · exact .inl rfl
    · rcases recordFinish_cases (.over s.now) s.trace with ⟨ms, t0, es, hs, hf⟩ | hf
      · exact .inr (.inr (.inr (.inl ⟨ms, t0, es, hs, ht, hf⟩)))
      · exact .inl hf
    · rcases (engineTurn_ends he hx).history with ⟨htr, -⟩ | ⟨q, htr, -⟩ | ⟨ms, t0, htr, -⟩
      · exact .inl htr
      · exact .inr (.inl ⟨_, htr⟩)
      · exact .inr (.inl ⟨_, htr⟩)
  · exact .inl (by simp)
  · rcases answer_trace_cases { s with agenda := s.agenda.tail } r with ⟨q, es, hs, ha⟩ | ha
    · exact .inr (.inr (.inl ⟨q, r, es, hs, ha⟩))
    · exact .inl ha
  · exact .inl rfl
  · rcases cutTrace_cases { s with agenda := s.agenda.tail } with ⟨ms, t0, es, hs, hc⟩ | hc
    · exact .inr (.inr (.inr (.inr ⟨ms, t0, es, hs, ht, hc⟩)))
    · exact .inl hc

end Sys2Proof.Machine

/-! PROOF. The encoding (O1, O2, O3, O4): a word is its opcode and its fields, and `decode` gives the
command that has both. Then what the encoding means to a command: the width codes it turns into frames
(O7), the reserved opcodes (O42), the checks of its fields (O43) and the fields it ignores (O44). -/

namespace Sys2Proof.Machine

/-! ### The parts of a command word (R71) -/

/-- Packing puts each field where R71 reads it: a slice skips the parts below it and takes the one it
starts at. (The library's two lemmas are local facts here: `simp` does not find them by name, because the
widths of the packed parts are numerals and not sums.) -/
theorem wordFields_packWord (op : BitVec 4) (f : Fields) : wordFields (packWord op f) = f := by
  have skip {n m k l : Nat} (x : BitVec n) (y : BitVec m) (h : m ≤ k) :
      (x ++ y).extractLsb' k l = x.extractLsb' (k - m) l := BitVec.extractLsb'_append_eq_of_le h
  have take {n m : Nat} (x : BitVec n) (y : BitVec m) : (x ++ y).extractLsb' 0 m = y :=
    BitVec.extractLsb'_append_eq_right
  simp [wordFields, packWord, skip, take]

/-- Opcode and fields cover the word: adjacent slices join, from the top down. -/
theorem packWord_wordOp_wordFields (w : DWord) : packWord (wordOp w) (wordFields w) = w := by
  simp only [packWord, wordOp, wordFields]
  iterate 6 rw [BitVec.extractLsb'_append_extractLsb'_eq_extractLsb' (by rfl)]
  exact BitVec.extractLsb'_eq_self

/-! ### Decoding (R75, R76, R78) -/

/-- A word decodes to the command with its opcode and its fields, and to no other. -/
theorem decode_eq_ok_iff {w : DWord} {i : Instr} :
    decode w = .ok i ↔ wordOp w = opcodeOf i ∧ wordFields w = i.fields := by
  constructor
  · intro h
    simp only [decode] at h
    split at h <;> cases h <;> exact ⟨‹_›, rfl⟩
  · rintro ⟨hop, hf⟩
    cases i <;> simp only [decode, hop, opcodeOf, hf, Instr.fields]

theorem decode_of_reserved {w : DWord} (h : wordOp w = 0#4 ∨ 9#4 < wordOp w) :
    decode w = .error (.reservedOpcode (wordOp w)) := by
  simp only [decode]
  split
  case h_10 => rfl
  all_goals
    rename_i hop
    rw [hop] at h
    exact absurd h (by decide)

/-- Settles O1: the word of a command has the command's opcode and its fields. -/
theorem decodeOfEncodeIsCommand : Obligations.DecodeOfEncodeIsCommand := fun i =>
  decode_eq_ok_iff.mpr
    ⟨Laws.OpcodeNibble.wordOp_packWord (opcodeOf i) i.fields, wordFields_packWord (opcodeOf i) i.fields⟩

/-- Settles O2: the command of a word has the word's opcode and fields, which pack to the word. -/
theorem encodeOfDecodedIsWord : Obligations.EncodeOfDecodedIsWord := by
  intro w i h
  obtain ⟨hop, hf⟩ := decode_eq_ok_iff.mp h
  rw [encode, ← hop, ← hf, packWord_wordOp_wordFields]

/-- Settles O3: the fields are `wordFields w`, and each opcode has its clause. -/
theorem decodeByOpcodeAlone : Obligations.DecodeByOpcodeAlone := by
  intro w
  have of_opcode (i : Instr) (hi : wordFields w = i.fields) (h : wordOp w = opcodeOf i) :
      decode w = .ok i := decode_eq_ok_iff.mpr ⟨h, hi⟩
  exact ⟨wordFields w, rfl, rfl, rfl, rfl, rfl, rfl, of_opcode (.encw _) rfl, of_opcode (.enca _) rfl,
    of_opcode (.decr _) rfl, of_opcode (.wrs _) rfl, of_opcode (.rd _) rfl, of_opcode (.wseq _) rfl,
    of_opcode (.wtbl _) rfl, of_opcode (.wtbls _) rfl, of_opcode (.wall _) rfl, decode_of_reserved⟩

/-- Settles O4: closed words, each computed. -/
theorem workedEncodings : Obligations.WorkedEncodings := by
  unfold Obligations.WorkedEncodings
  decide

/-! ### Frames (R79, R101, R103) -/

theorem encodeAddress_eq_none {aw : WidthCode} {a : Half} :
    encodeAddress aw a = none ↔ widthOf aw = none := by
  unfold encodeAddress
  split <;> simp [*]

theorem encodeWrite_eq_none {aw dw : WidthCode} {a d : Half} :
    encodeWrite aw a dw d = none ↔ widthOf aw = none ∨ widthOf dw = none := by
  unfold encodeWrite encodeAddress encodeData
  cases widthOf aw <;> cases widthOf dw <;> simp

/-- Settles O7: at legal codes both sides compute to the same bytes; an illegal code has no width. -/
theorem frameLayouts : Obligations.FrameLayouts := by
  intro aw dw a d
  refine ⟨?_, ?_, fun h => ?_, ?_, ?_, ?_, ?_, fun h => ?_⟩
  · rintro rfl; rfl
  · rintro rfl; rfl
  · exact encodeAddress_eq_none.mpr (widthOf_eq_none.mpr h)
  · rintro ⟨rfl, rfl⟩; rfl
  · rintro ⟨rfl, rfl⟩; rfl
  · rintro ⟨rfl, rfl⟩; rfl
  · rintro ⟨rfl, rfl⟩; rfl
  · rw [encodeWrite_eq_none, widthOf_eq_none, widthOf_eq_none, or_assoc]
    exact h

/-! ### Reserved opcodes (R76) -/

/-- Settles O42: the engine's turn on a word that decodes to no command. -/
theorem reservedOpcodeGenericFailure : Obligations.ReservedOpcodeGenericFailure := by
  intro s r he ht hop
  rw [step_eq, ht, takeTurn_engine]
  simp only [engineTurn, he, decode_of_reserved hop]
  rfl

/-! ### The checks a command makes of its fields (R74, R77, R174) -/

theorem checkReserved_of_ne {f : Fields} (h : f.rsv0 ≠ 0#8 ∨ f.rsv1 ≠ 0#16) (s : State) (rest : Out) :
    checkReserved f s rest = .next (s.complete .invalidArgument) :=
  if_neg fun hr => not_and_or.mpr h (reservedClear_iff.mp hr)

theorem checkReserved_of_zero {f : Fields} (h0 : f.rsv0 = 0#8) (h1 : f.rsv1 = 0#16) (s : State)
    (rest : Out) : checkReserved f s rest = rest :=
  if_pos (reservedClear_iff.mpr ⟨h0, h1⟩)

/-- The check reads the reserved fields only. -/
theorem checkReserved_congr {f g : Fields} (h0 : f.rsv0 = g.rsv0) (h1 : f.rsv1 = g.rsv1) :
    checkReserved f = checkReserved g := by
  funext s rest
  unfold checkReserved reservedClear
  rw [h0, h1]

/-- At a command's start the reserved fields are checked first; with an illegal code in a width field it
uses, what comes next is `InvalidWidth` (R174 steps 2 and 3). -/
theorem exec_at_start {i : Instr} {s : State} (he : s.eng = .exec .start) :
    ∃ rest, exec i s = checkReserved i.fields s rest ∧
      ((i.usesAw = true ∧ widthOf i.fields.aw = none) ∨ (i.usesDw = true ∧ widthOf i.fields.dw = none) →
        rest = .next (s.complete .invalidWidth)) := by
  have hr : resumeOf s = .start := resumeOf_of_exec he
  cases i <;> simp only [exec, Instr.fields, Instr.usesAw, Instr.usesDw, Bool.false_eq_true, true_and,
    false_and, or_false, false_or]
  case encw f => exact ⟨_, rfl, fun h => by simp only [encodeWrite_eq_none.mpr h, finishEncode]⟩
  case enca f => exact ⟨_, rfl, fun h => by simp only [encodeAddress_eq_none.mpr h, finishEncode]⟩
  case decr f => exact ⟨_, rfl, fun h => by simp only [h]⟩
  case wrs f =>
    simp only [execWrs, hr]
    exact ⟨_, rfl, fun h => by simp only [encodeWrite_eq_none.mpr h]⟩
  case rd f =>
    simp only [execRd, hr]
    refine ⟨_, rfl, fun h => ?_⟩
    rcases h with h | h
    · simp only [encodeAddress_eq_none.mpr h]
    · cases encodeAddress f.aw f.opa <;> simp only [h]
  case wseq f =>
    simp only [execWseq, hr]
    exact ⟨_, rfl, fun h => by simp only [encodeAddress_eq_none.mpr h]⟩
  case wtbl f =>
    simp only [execWtbl, hr]
    refine ⟨_, rfl, fun h => if_pos ?_⟩
    rcases h with h | h <;> simp [legal, h]
  case wtbls f =>
    simp only [execWtbls, hr]
    exact ⟨_, rfl, fun h => if_pos (by simp [legal, h])⟩
  case wall f =>
    simp only [execWall, hr]
    exact ⟨_, rfl, fun h => if_pos (by simp [legal, h])⟩

/-- Settles O43: at its start a command checks its reserved fields and then its widths. -/
theorem fieldErrorsComeFirst : Obligations.FieldErrorsComeFirst := by
  intro i s he
  obtain ⟨rest, hx, hw⟩ := exec_at_start (i := i) he
  refine ⟨fun h => ?_, fun h0 h1 h => ?_⟩
  · rw [hx, checkReserved_of_ne h]
    rfl
  · simp only [← widthOf_eq_none] at h
    rw [hx, checkReserved_of_zero h0 h1, hw h]
    rfl

/-! ### The fields a command ignores (R77) -/

/-- Settles O44: each rule names only the fields it uses, and the reserved-field check the reserved ones. -/
theorem ignoredFieldsNotRead : Obligations.IgnoredFieldsNotRead := by
  intro f g s h0 h1
  have hc := checkReserved_congr h0 h1
  refine ⟨fun ha ho => ?_, fun hd => ?_, fun ha hd ho => ?_, fun ha ho hn => ?_, fun ha ho => ?_,
    fun ha ho hn => ?_⟩
  · simp only [exec, execEnca, hc, ha, ho]
  · simp only [exec, execDecr, hc, hd]
  · simp only [exec, execRd, hc, ha, hd, ho]
  · simp only [exec, execWseq, hc, ha, ho, hn]
  · simp only [exec, execWtbls, hc, ha, ho]
  · simp only [exec, execWall, hc, ha, ho, hn]

end Sys2Proof.Machine

/-! PROOF. The codec: the byte sequences `DecodeRead` accepts and their round trip (O8, O9), the places of
the bytes in `FRAME` (O10), and the three codec commands, their whole effect and their frame (O11, O12,
O13, O14). -/

namespace Sys2Proof.Machine

/-! ### Decoding read-back bytes (R102, R105, R107) -/

theorem widthOf_eq_byte {c : WidthCode} : widthOf c = some .byte ↔ c = 1#2 := by
  revert c; decide

theorem widthOf_eq_word {c : WidthCode} : widthOf c = some .word ↔ c = 2#2 := by
  revert c; decide

/-- Settles O8: `DecodeRead` has a value at one byte and Byte width and at two bytes and Word width. -/
theorem decodeReadExactLength : Obligations.DecodeReadExactLength := by
  intro dw bytes
  refine ⟨?_, ?_, fun ⟨hbyte, hword⟩ => ?_⟩
  · rintro b0 rfl rfl; rfl
  · rintro b0 b1 rfl rfl; rfl
  · unfold decodeRead
    split
    · exact absurd ⟨widthOf_eq_byte.mp ‹_›, rfl⟩ hbyte
    · exact absurd ⟨widthOf_eq_word.mp ‹_›, rfl⟩ hword
    · rfl

/-- The two bytes of a value, most significant first, are the value (R52). -/
theorem highByte_append_lowByte (d : Half) : d.extractLsb' 8 8 ++ d.extractLsb' 0 8 = d := by
  rw [BitVec.extractLsb'_append_extractLsb'_eq_extractLsb' (by rfl)]
  exact BitVec.extractLsb'_eq_self

/-- Settles O9: at Word the two bytes join again, at Byte the one byte is the low one. -/
theorem dataRoundTrip : Obligations.DataRoundTrip :=
  fun d => ⟨congrArg some (highByte_append_lowByte d), rfl⟩

/-! ### Packing and unpacking a frame (R108) -/

/-- Byte 0 of `FRAME` is the first byte packed. -/
theorem extractLsb'_packBytes_cons_zero (b : Byte) (bs : List Byte) :
    (packBytes (b :: bs)).extractLsb' 0 8 = b := by
  apply BitVec.eq_of_getLsbD_eq
  intro i hi
  have h32 : i < 32 := by omega
  simp [packBytes, hi, h32]

/-- The bytes of `FRAME` above the first are those of the rest, one place up. -/
theorem extractLsb'_packBytes_cons_succ (b : Byte) (bs : List Byte) {k : Nat} (hk : k + 1 < 4) :
    (packBytes (b :: bs)).extractLsb' (8 * (k + 1)) 8 = (packBytes bs).extractLsb' (8 * k) 8 := by
  apply BitVec.eq_of_getLsbD_eq
  intro i hi
  have hplace : 8 * (k + 1) + i = 8 + (8 * k + i) := by omega
  have hlo : 8 * k + i < 32 := by omega
  have hhi : 8 + (8 * k + i) < 32 := by omega
  simp [packBytes, hi, hplace, hlo, hhi]

/-- Byte `k` of `FRAME` is byte `k` of the sequence, and 0 past its end. -/
theorem extractLsb'_packBytes (bytes : List Byte) :
    ∀ k < 4, (packBytes bytes).extractLsb' (8 * k) 8 = bytes.getD k 0#8 := by
  induction bytes with
  | nil => intro k _; simp [packBytes]
  | cons b bs ih =>
    intro k hk
    cases k with
    | zero => exact extractLsb'_packBytes_cons_zero b bs
    | succ k =>
      rw [extractLsb'_packBytes_cons_succ b bs hk, ih k (by omega)]
      rfl

/-- `LEN` holds every length that fits in `FRAME`. -/
theorem toNat_packFrame_len {bytes : List Byte} (h : bytes.length ≤ 4) :
    (packFrame bytes).2.toNat = bytes.length :=
  Nat.mod_eq_of_lt (by omega)

theorem unpackFrame_of_le {frame : Word} {len : BitVec 3} (h : len.toNat ≤ 4) :
    unpackFrame frame len = some ((List.range len.toNat).map fun k => frame.extractLsb' (8 * k) 8) :=
  if_pos h

theorem unpackFrame_packFrame {bytes : List Byte} (h : bytes.length ≤ 4) :
    unpackFrame (packFrame bytes).1 (packFrame bytes).2 = some bytes := by
  have hlen := toNat_packFrame_len h
  rw [unpackFrame_of_le (hlen.trans_le h), hlen]
  congr 1
  refine List.ext_getElem (by simp) fun k _ hk => ?_
  simp [packFrame, extractLsb'_packBytes bytes k (by omega), hk]

/-- Settles O10: packing puts each byte in its place, and unpacking reads the first `LEN` places. -/
theorem framePacking : Obligations.FramePacking := by
  refine ⟨fun bytes h => ?_, fun frame len => ⟨fun h => ?_, fun h => if_neg h.not_ge⟩⟩
  · exact ⟨toNat_packFrame_len h, extractLsb'_packBytes bytes, unpackFrame_packFrame h⟩
  · exact ⟨_, unpackFrame_of_le h, by simp, fun k hk => by simp [hk]⟩

/-! ### The codec commands (R111, R112, R113) -/

/-- The check of the reserved fields, by the fields themselves (R74). -/
theorem checkReserved_eq_ite (f : Fields) (s : State) (rest : Out) :
    checkReserved f s rest =
      if f.rsv0 ≠ 0#8 ∨ f.rsv1 ≠ 0#16 then .next (s.complete .invalidArgument) else rest := by
  split
  case isTrue h => exact checkReserved_of_ne h s rest
  case isFalse h =>
    obtain ⟨h0, h1⟩ := not_or.mp h
    exact checkReserved_of_zero (not_not.mp h0) (not_not.mp h1) s rest

theorem exec_encw (f : Fields) (s : State) :
    exec (.encw f) s = checkReserved f s (finishEncode (encodeWrite f.aw f.opa f.dw f.opb) s) := rfl

theorem exec_enca (f : Fields) (s : State) :
    exec (.enca f) s = checkReserved f s (finishEncode (encodeAddress f.aw f.opa) s) := rfl

/-- Settles O11: a nonzero reserved field, an illegal width, or the packed write frame. -/
theorem encwResult : Obligations.EncwResult := by
  intro f s
  rw [exec_encw, checkReserved_eq_ite]
  split
  · rfl
  · cases encodeWrite f.aw f.opa f.dw f.opb <;> rfl

/-- Settles O12: a nonzero reserved field, an illegal width, or the packed address frame. -/
theorem encaResult : Obligations.EncaResult := by
  intro f s
  rw [exec_enca, checkReserved_eq_ite]
  split
  · rfl
  · cases encodeAddress f.aw f.opa <;> rfl

/-- What `DecodeRead` makes of the first bytes of `FRAME`, at each width (R105, R113). -/
def frameValue (w : Width) (frame : Word) : Half :=
  match w with
  | .byte => (frame.extractLsb' 0 8).setWidth 16
  | .word => frame.extractLsb' 0 8 ++ frame.extractLsb' 8 8

/-- When `LEN` is exactly the width's byte count, unpacking and decoding give the value. -/
theorem decodeRead_unpackFrame {dw : WidthCode} {w : Width} (hw : widthOf dw = some w) (frame : Word)
    {len : BitVec 3} (hl : len.toNat = widthBytes w) :
    (unpackFrame frame len).bind (decodeRead dw) = some (frameValue w frame) := by
  cases w with
  | byte =>
    obtain rfl := widthOf_eq_byte.mp hw
    obtain rfl : len = 1#3 := BitVec.eq_of_toNat_eq hl
    rfl
  | word =>
    obtain rfl := widthOf_eq_word.mp hw
    obtain rfl : len = 2#3 := BitVec.eq_of_toNat_eq hl
    rfl

theorem exec_decr_of_illegal {f : Fields} (hw : widthOf f.dw = none) (s : State) :
    exec (.decr f) s = checkReserved f s (.next (s.complete .invalidWidth)) := by
  simp only [exec, execDecr, hw]

/-- At a legal width `DECR` tests the length, and then its bytes decode (R113). -/
theorem exec_decr_of_legal {f : Fields} {w : Width} (hw : widthOf f.dw = some w) (s : State) :
    exec (.decr f) s = checkReserved f s (.next
      (if s.frameLen.toNat = widthBytes w then { s with rdata := frameValue w s.frame }.complete .ok
       else s.complete .invalidWidth)) := by
  simp only [exec, execDecr, hw]
  by_cases hl : s.frameLen.toNat = widthBytes w
  · simp only [hl, decodeRead_unpackFrame hw s.frame hl, ne_eq, not_true, if_false, if_true]
  · simp only [hl, ne_eq, not_false_eq_true, if_true, if_false]

/-- Settles O13: an illegal width, and each legal one with the length it asks for. -/
theorem decrResult : Obligations.DecrResult := by
  intro f s
  cases hw : widthOf f.dw with
  | none =>
    have hd : f.dw ≠ 1#2 ∧ f.dw ≠ 2#2 := by
      rcases widthOf_eq_none.mp hw with h | h <;> simp [h]
    rw [exec_decr_of_illegal hw, checkReserved_eq_ite]
    simp only [hd, false_and, if_false]
    split <;> rfl
  | some w =>
    rw [exec_decr_of_legal hw, checkReserved_eq_ite]
    cases w with
    | byte =>
      have hl : s.frameLen.toNat = 1 ↔ s.frameLen = 1#3 := BitVec.toNat_inj (y := 1#3)
      simp only [widthOf_eq_byte.mp hw, widthBytes, hl, true_and, BitVec.reduceEq, false_and, if_false]
      split
      · rfl
      · split <;> rfl
    | word =>
      have hl : s.frameLen.toNat = 2 ↔ s.frameLen = 2#3 := BitVec.toNat_inj (y := 2#3)
      simp only [widthOf_eq_word.mp hw, widthBytes, hl, true_and, BitVec.reduceEq, false_and, if_false]
      split
      · rfl
      · split <;> rfl

/-! ### What the codec commands change -/

/-- An encode command that goes on completes with an error and writes nothing, or completes with Ok and
writes the frame registers only (R111, R112). -/
theorem encode_next {f : Fields} {r : Option (List Byte)} {s t : State}
    (h : checkReserved f s (finishEncode r s) = .next t) :
    (∃ code, t = s.complete code) ∨
      ∃ w n, t = ({ s with frame := w, frameLen := n } : State).complete .ok := by
  rcases checkReserved_next h with rfl | ⟨-, h⟩
  · exact .inl ⟨_, rfl⟩
  · cases r <;> cases h
    · exact .inl ⟨_, rfl⟩
    · exact .inr ⟨_, _, rfl⟩

/-- `DECR` completes with an error and writes nothing, or completes with Ok and writes `RDATA` only
(R113). -/
theorem exec_decr_next {f : Fields} {s t : State} (h : exec (.decr f) s = .next t) :
    (∃ code, t = s.complete code) ∨ ∃ v, t = ({ s with rdata := v } : State).complete .ok := by
  rw [decrResult f s] at h
  cases h
  split
  · exact .inl ⟨.invalidArgument, rfl⟩
  · split
    · exact .inr ⟨frameValue .byte s.frame, rfl⟩
    · split
      · exact .inr ⟨frameValue .word s.frame, rfl⟩
      · exact .inl ⟨.invalidWidth, rfl⟩

/-- What a codec command does: it completes writing nothing, or with Ok and its own results written. -/
theorem exec_codec_next {f : Fields} {i : Instr} {s t : State}
    (hi : i = .encw f ∨ i = .enca f ∨ i = .decr f) (h : exec i s = .next t) :
    (∃ code, t = s.complete code) ∨
    (i ≠ .decr f ∧ ∃ w n, t = ({ s with frame := w, frameLen := n } : State).complete .ok) ∨
    (i = .decr f ∧ ∃ v, t = ({ s with rdata := v } : State).complete .ok) := by
  rcases hi with rfl | rfl | rfl
  · exact (encode_next h).imp_right fun hok => .inl ⟨by simp, hok⟩
  · exact (encode_next h).imp_right fun hok => .inl ⟨by simp, hok⟩
  · exact (exec_decr_next h).imp_right fun hok => .inr ⟨rfl, hok⟩

/-- Settles O14: a completion changes `ERR` and the engine, and only one with Ok wrote a result. -/
theorem codecCommandFrame : Obligations.CodecCommandFrame := by
  intro f i s t hi hx
  rcases exec_codec_next hi hx with ⟨code, rfl⟩ | ⟨hne, w, n, rfl⟩ | ⟨rfl, v, rfl⟩
  · simp
  · simp [hne]
  · simp

end Sys2Proof.Machine

/-! PROOF. The commands of one bus transaction, `WRS`, `RD` and `WSEQ`: their step from the start (O15, O17,
O19) and after the answer (O16, O18), the transaction and the wait for it (O20, O21), what they leave
unchanged (O22), and their whole run from launch to completion (O34, O35, O36). -/

namespace Sys2Proof.Machine

/-! ### Widths and well-formed commands -/

theorem not_legal_iff {c : WidthCode} : ¬ (c = 1#2 ∨ c = 2#2) ↔ c = 0#2 ∨ c = 3#2 := by
  rw [← legal_iff, ← legal_eq_false, Bool.not_eq_true]

theorem encodeAddress_legal {aw : WidthCode} (a : Half) (h : aw = 1#2 ∨ aw = 2#2) :
    ∃ bs, encodeAddress aw a = some bs := by
  rcases h with rfl | rfl <;> exact ⟨_, rfl⟩

/-- A legal width code is its own byte count (R72, R100). -/
theorem widthOf_legal {c : WidthCode} (h : c = 1#2 ∨ c = 2#2) :
    ∃ w, widthOf c = some w ∧ widthBytes w = c.toNat := by
  rcases h with rfl | rfl <;> exact ⟨_, rfl, rfl⟩

theorem reserved_eq_zero_of_wellFormed {i : Instr} (h : i.wellFormed = true) :
    i.fields.rsv0 = 0#8 ∧ i.fields.rsv1 = 0#16 := by
  simp only [Instr.wellFormed, Fields.reservedZero, Bool.and_eq_true, beq_iff_eq] at h
  exact h.1

theorem dw_legal_of_wellFormed {i : Instr} (h : i.wellFormed = true) (hu : i.usesDw = true) :
    i.fields.dw = 1#2 ∨ i.fields.dw = 2#2 := by
  simp only [Instr.wellFormed, Instr.widthsLegal, WidthCode.legal, hu, Bool.not_true, Bool.false_or,
    Bool.and_eq_true, Bool.or_eq_true, beq_iff_eq] at h
  exact h.2.2

/-! ### The commands from their start (R130, R131, R132) -/

section Start

variable {f : Fields} {s : State} {bytes : List Byte}
  (he : s.eng = .exec .start) (h0 : f.rsv0 = 0#8) (h1 : f.rsv1 = 0#16)
include he h0 h1

/-- A frame that can be encoded is issued as one write. -/
theorem exec_wrs_issues (hb : encodeWrite f.aw f.opa f.dw f.opb = some bytes) :
    exec (.wrs f) s = .next (s.transact bytes 0) := by
  simp only [exec, execWrs, resumeOf_of_exec he, checkReserved_of_zero h0 h1, hb]

/-- At legal widths the address is issued together with a read of the data width's byte count. -/
theorem exec_rd_issues (hb : encodeAddress f.aw f.opa = some bytes) (hd : f.dw = 1#2 ∨ f.dw = 2#2) :
    exec (.rd f) s = .next (s.transact bytes f.dw.toNat) := by
  obtain ⟨w, hw, hn⟩ := widthOf_legal hd
  simp only [exec, execRd, resumeOf_of_exec he, checkReserved_of_zero h0 h1, hb, hw, hn]

variable (hb : encodeAddress f.aw f.opa = some bytes)
include hb

theorem exec_wseq_of_bad_count (hn : f.opb.toNat = 0 ∨ s.params.seqMax < f.opb.toNat) :
    exec (.wseq f) s = .next (s.complete .invalidArgument) := by
  simp only [exec, execWseq, resumeOf_of_exec he, checkReserved_of_zero h0 h1, hb]
  rcases hn with hn | hn
  · rw [if_pos hn]
  · simp only [hn, if_true, ite_self]

variable (hz : f.opb.toNat ≠ 0) (hm : f.opb.toNat ≤ s.params.seqMax)
include hz hm

/-- A count in range reads that many elements of `SEQBUF`; if all are written, one write is issued. -/
theorem exec_wseq_issues {data : List Byte} (hl : data.length = f.opb.toNat)
    (hd : holdsFrom s.seqbuf 0 data) : exec (.wseq f) s = .next (s.transact (bytes ++ data) 0) := by
  have hr : memReadMany s.seqbuf 0 f.opb.toNat = .ok data := hl ▸ memReadMany_ok _ _ _ hd
  simp only [exec, execWseq, resumeOf_of_exec he, checkReserved_of_zero h0 h1, hb, if_neg hz,
    if_neg hm.not_gt, hr]

/-- The model stops at the first element of the burst nothing has written (R194). -/
theorem exec_wseq_unwritten {j : Nat} (hj : j < f.opb.toNat) (hn : memRead s.seqbuf j = none)
    (hw : ∀ k, k < j → memRead s.seqbuf k ≠ none) :
    exec (.wseq f) s = .fault (.unwrittenSeq j) := by
  have hr : memReadMany s.seqbuf 0 f.opb.toNat = .error j := by
    simpa using memReadMany_error s.seqbuf 0 j _ hj (by simpa using hn) (by simpa using hw)
  simp only [exec, execWseq, resumeOf_of_exec he, checkReserved_of_zero h0 h1, hb, if_neg hz,
    if_neg hm.not_gt, hr]

end Start

/-- Settles O15: the field errors first, then the frame as one write. -/
theorem wrsIssuesOneWrite : Obligations.WrsIssuesOneWrite := by
  intro f s he
  obtain ⟨hreserved, hwidths⟩ := fieldErrorsComeFirst (.wrs f) s he
  split
  case isTrue h => exact hreserved h
  case isFalse h =>
    obtain ⟨h0, h1⟩ : f.rsv0 = 0#8 ∧ f.rsv1 = 0#16 := by simpa using h
    cases hb : encodeWrite f.aw f.opa f.dw f.opb with
    | none =>
      have hw := encodeWrite_eq_none.mp hb
      rw [widthOf_eq_none, widthOf_eq_none] at hw
      exact hwidths h0 h1 (hw.imp (⟨rfl, ·⟩) (⟨rfl, ·⟩))
    | some bytes => exact exec_wrs_issues he h0 h1 hb

/-- Settles O17: the field errors first, then the address and the read as one transaction. -/
theorem rdIssuesCombinedRead : Obligations.RdIssuesCombinedRead := by
  intro f s he
  obtain ⟨hreserved, hwidths⟩ := fieldErrorsComeFirst (.rd f) s he
  split
  case isTrue h => exact hreserved h
  case isFalse h =>
    obtain ⟨h0, h1⟩ : f.rsv0 = 0#8 ∧ f.rsv1 = 0#16 := by simpa using h
    split
    case isTrue hlegal =>
      obtain ⟨bytes, hb⟩ := encodeAddress_legal f.opa hlegal.1
      rw [exec_rd_issues he h0 h1 hb hlegal.2, hb]
      rfl
    case isFalse hillegal =>
      rw [not_and_or, not_legal_iff, not_legal_iff] at hillegal
      exact hwidths h0 h1 (hillegal.imp (⟨rfl, ·⟩) (⟨rfl, ·⟩))

/-- Settles O19: the field errors first, then the count, then the bytes of `SEQBUF`. -/
theorem wseqIssuesBurst : Obligations.WseqIssuesBurst := by
  intro f s he
  obtain ⟨hreserved, hwidths⟩ := fieldErrorsComeFirst (.wseq f) s he
  refine ⟨hreserved, fun h0 h1 => ⟨fun ha => hwidths h0 h1 (.inl ⟨rfl, ha⟩), fun ha => ?_⟩⟩
  obtain ⟨bytes, hb⟩ := encodeAddress_legal f.opa ha
  have hzero : f.opb = 0#16 ↔ f.opb.toNat = 0 := (BitVec.toNat_inj (y := 0#16)).symm
  rw [ne_eq, hzero]
  refine ⟨exec_wseq_of_bad_count he h0 h1 hb, fun hz hm => ⟨fun data hl hd => ?_, fun j => ?_⟩⟩
  · rw [exec_wseq_issues he h0 h1 hb hz hm hl hd, hb]
    rfl
  · exact exec_wseq_unwritten he h0 h1 hb hz hm

/-! ### The commands after the answer (R130, R131, R132) -/

section Answered

variable {s : State} {v : Response} (he : s.eng = .exec (.answered v)) (f : Fields)
include he

theorem exec_wrs_answered : exec (.wrs f) s = finishWrite v s := by
  simp only [exec, execWrs, resumeOf_of_exec he]

theorem exec_wseq_answered : exec (.wseq f) s = finishWrite v s := by
  simp only [exec, execWseq, resumeOf_of_exec he]

theorem exec_rd_answered : exec (.rd f) s = finishRead f.dw v s := by
  simp only [exec, execRd, resumeOf_of_exec he]

end Answered

/-- Settles O16: both commands go on as `finishWrite` does. -/
theorem writeCommandsComplete : Obligations.WriteCommandsComplete := by
  intro f s v he
  rw [exec_wrs_answered he, exec_wseq_answered he]
  refine ⟨?_, ?_⟩
  · rintro rfl; exact ⟨rfl, rfl⟩
  · rintro rb rfl; exact ⟨rfl, rfl⟩

/-- Settles O18: `RD` goes on as `finishRead` does, and a value decodes from the width's own length. -/
theorem rdCompletes : Obligations.RdCompletes := by
  intro f s v he
  rw [exec_rd_answered he]
  refine ⟨?_, ?_, ?_⟩
  · rintro rfl; rfl
  · rintro b rfl hd; rw [hd]; rfl
  · rintro b0 b1 rfl hd; rw [hd]; rfl

/-! ### The transaction (R120, R123, R125) -/

/-- The answer to the outstanding request, the newest event: it is judged by its length and recorded as
delivered (R120; log 3). -/
theorem step_answer {s : State} {q : Request} {r : Response} {rest : List Turn} {es : List Event}
    (ha : s.agenda = .transport r :: rest) (he : s.eng = .waitBus) (hq : s.req = some q)
    (ht : s.trace = .txn q none :: es) :
    step s = .next { s with
      agenda := rest
      req := none
      eng := .exec (.answered (judge q.rlen r))
      trace := .txn q (some r) :: es } := by
  rw [step_cons ha]
  simp only [takeTurn, State.answer, he, hq, ht, recordOutcome]

/-- Settles O20: the issue is `State.transact` written out, and the answer is judged by its length. -/
theorem transactIssuesAndJudges : Obligations.TransactIssuesAndJudges := by
  refine ⟨fun s wbytes rlen => rfl, fun s q r rest es ha he hq ht => ?_⟩
  rw [step_answer ha he hq ht]
  cases r <;> rfl

/-- While a transaction is outstanding the engine has nothing to do (R125). -/
theorem engineTurn_of_waitBus {s : State} (he : s.eng = .waitBus) : engineTurn s = .next s := by
  simp only [engineTurn, he]

/-- Settles O21: the engine has nothing to do, the host reaches `OVR` alone, and time moves the clock. -/
theorem waitsForTheTransport : Obligations.WaitsForTheTransport := by
  intro s he htransport hreset
  have hb : isBusy s = true := isBusy_eq_true.mpr (by simp [he])
  rw [step_eq]
  cases ht : s.turn with
  | engine => exact ⟨_, engineTurn_of_waitBus he, he, hb, rfl, rfl, rfl⟩
  | host a =>
    refine ⟨_, rfl, ?_⟩
    rw [hostAct_busy (s := { s with agenda := s.agenda.tail }) hb a]
    exact ⟨he, hb, rfl, rfl, rfl⟩
  | transport r => exact absurd ht (htransport r)
  | time dt => exact ⟨_, rfl, he, hb, rfl, rfl, rfl⟩
  | reset => exact absurd ht hreset

/-! ### What the commands change -/

/-- `t` is `s` with the command completed or a transaction issued, and nothing else. -/
def CompletesOrIssues (s t : State) : Prop :=
  (∃ code, t = s.complete code) ∨ ∃ bs n, t = s.transact bs n

theorem completesOrIssues_complete (s : State) (code : Result) :
    CompletesOrIssues s (s.complete code) := .inl ⟨code, rfl⟩

theorem completesOrIssues_transact (s : State) (bs : List Byte) (n : Nat) :
    CompletesOrIssues s (s.transact bs n) := .inr ⟨bs, n, rfl⟩

section Next

variable {f : Fields} {s t : State}

theorem checkReserved_completesOrIssues {rest : Out} (h : checkReserved f s rest = .next t)
    (hr : rest = .next t → CompletesOrIssues s t) : CompletesOrIssues s t := by
  rcases checkReserved_next h with rfl | ⟨-, h⟩
  · exact completesOrIssues_complete s _
  · exact hr h

theorem finishWrite_completesOrIssues {v : Response} (h : finishWrite v s = .next t) :
    CompletesOrIssues s t := by
  rcases finishWrite_next h with ⟨-, rfl⟩ | ⟨_, -, rfl⟩ <;> exact completesOrIssues_complete s _

theorem exec_wrs_next (h : exec (.wrs f) s = .next t) : CompletesOrIssues s t := by
  simp only [exec, execWrs] at h
  split at h
  case h_1 => exact finishWrite_completesOrIssues h
  all_goals
    refine checkReserved_completesOrIssues h fun h => ?_
    split at h <;> cases h
    · exact completesOrIssues_complete s _
    · exact completesOrIssues_transact s _ _

theorem exec_wseq_next (h : exec (.wseq f) s = .next t) : CompletesOrIssues s t := by
  simp only [exec, execWseq] at h
  split at h
  case h_1 => exact finishWrite_completesOrIssues h
  all_goals
    refine checkReserved_completesOrIssues h fun h => ?_
    split at h
    · cases h; exact completesOrIssues_complete s _
    · split at h
      · cases h; exact completesOrIssues_complete s _
      · split at h
        · cases h; exact completesOrIssues_complete s _
        · split at h <;> cases h
          exact completesOrIssues_transact s _ _

/-- Besides what the write commands do, `RD` may complete with Ok and `RDATA` written (R131). -/
theorem exec_rd_next (h : exec (.rd f) s = .next t) :
    CompletesOrIssues s t ∨ ∃ v, t = ({ s with rdata := v } : State).complete .ok := by
  simp only [exec, execRd] at h
  split at h
  case h_1 =>
    unfold finishRead at h
    split at h
    · cases h; exact .inl (completesOrIssues_complete s _)
    · split at h <;> cases h
      · exact .inl (completesOrIssues_complete s _)
      · exact .inr ⟨_, rfl⟩
  all_goals
    refine .inl (checkReserved_completesOrIssues h fun h => ?_)
    split at h <;> cases h
    · exact completesOrIssues_transact s _ _
    · exact completesOrIssues_complete s _

end Next

/-- Settles O22: a completion changes `ERR` and the engine, an issue the request, the count, the engine and
the history, and only a completing `RD` with Ok wrote `RDATA`. -/
theorem busCommandFrame : Obligations.BusCommandFrame := by
  intro f i s t hi hx
  have hcases : CompletesOrIssues s t ∨
      (i = .rd f ∧ ∃ v, t = ({ s with rdata := v } : State).complete .ok) := by
    rcases hi with rfl | rfl | rfl
    · exact .inl (exec_wrs_next hx)
    · exact (exec_rd_next hx).imp_right (⟨rfl, ·⟩)
    · exact .inl (exec_wseq_next hx)
  rcases hcases with (⟨code, rfl⟩ | ⟨bs, n, rfl⟩) | ⟨rfl, v, rfl⟩ <;> simp

/-! ### The whole run (R40, R120, R123, R124) -/

/-- The state a launch by the host leaves, with `rest` the turns still to come (R40). -/
def State.launched (s : State) (hi : Word) (rest : List Turn) : State :=
  ({ s with agenda := rest } : State).launch hi

/-- The state in which the transaction `bs`, `n` issued in `s` has been answered (R120). -/
def State.answeredWith (s : State) (bs : List Byte) (n : Nat) (r : Response) : State :=
  { s with
    req := none
    txnCount := s.txnCount + 1#32
    eng := .exec (.answered (judge n r))
    trace := .txn ⟨s.devAddr, bs, n⟩ (some r) :: s.trace }

/-- A command that issues a transaction from its start, launched and answered: the run is launch, issue and
answer, and then the command's step after the answer. -/
theorem run_oneTransaction {s : State} {hi : Word} {i : Instr} {bs : List Byte} {n : Nat} {r : Response}
    {rest : List Turn} (he : s.eng = .idle) (hd : decode (hi ++ s.cmdLo) = .ok i)
    (hx : ∀ turns, exec i (s.launched hi turns) = .next ((s.launched hi turns).transact bs n))
    (ha : s.agenda = .host (.writeReg 0x04 hi) :: .engine :: .transport r :: .engine :: rest) :
    Host.Core.run core 4 s = exec i ((s.launched hi rest).answeredWith bs n r) := by
  have hlaunch : step s = .next (s.launched hi (.engine :: .transport r :: .engine :: rest)) :=
    step_writeReg_idle he ha
  have hissue : step (s.launched hi (.engine :: .transport r :: .engine :: rest)) =
      .next ((s.launched hi (.transport r :: .engine :: rest)).transact bs n) :=
    ((stepRunsDecodedCommand _ .start i rfl hd).2 _ rfl).trans
      (hx (.transport r :: .engine :: rest))
  have hanswer : step ((s.launched hi (.transport r :: .engine :: rest)).transact bs n) =
      .next ((s.launched hi (.engine :: rest)).answeredWith bs n r) :=
    step_answer (s := (s.launched hi (.transport r :: .engine :: rest)).transact bs n) rfl rfl rfl rfl
  have hfinish : step ((s.launched hi (.engine :: rest)).answeredWith bs n r) =
      exec i ((s.launched hi rest).answeredWith bs n r) :=
    (stepRunsDecodedCommand _ _ i rfl hd).2 _ rfl
  rw [run_succ hlaunch, run_succ hissue, run_succ hanswer, run_one, hfinish]

/-- After a write, a command completes with Ok exactly when the answer is Ok of no bytes (R123). -/
theorem finishWrite_judge (r : Response) (s : State) :
    finishWrite (judge 0 r) s = .next (s.complete (if r = .ok [] then .ok else .transportFailure)) := by
  match r with
  | .fail => rfl
  | .ok [] => rfl
  | .ok (_ :: _) => rfl

/-- Settles O34: the frame is issued as one write, and the answer is judged against no bytes. -/
theorem wrsWholeCommand : Obligations.WrsWholeCommand := by
  intro s hi f bytes r rest he hd hwf hb ha
  obtain ⟨h0, h1⟩ : f.rsv0 = 0#8 ∧ f.rsv1 = 0#16 := reserved_eq_zero_of_wellFormed hwf
  rw [run_oneTransaction he hd (fun _ => exec_wrs_issues rfl h0 h1 hb) ha, exec_wrs_answered rfl,
    finishWrite_judge, he]
  rfl

/-- Settles O36: the address and the burst are issued as one write, judged against no bytes. -/
theorem wseqWholeCommand : Obligations.WseqWholeCommand := by
  intro s hi f bytes data r rest he hd hwf hb hl hne hm hdata ha
  obtain ⟨h0, h1⟩ : f.rsv0 = 0#8 ∧ f.rsv1 = 0#16 := reserved_eq_zero_of_wellFormed hwf
  have hz : f.opb.toNat ≠ 0 := hl ▸ List.length_eq_zero_iff.not.mpr hne
  have hissue (turns : List Turn) : exec (.wseq f) (s.launched hi turns) =
      .next ((s.launched hi turns).transact (bytes ++ data) 0) :=
    exec_wseq_issues (s := s.launched hi turns) rfl h0 h1 hb hz hm hl hdata
  rw [run_oneTransaction he hd hissue ha,
    exec_wseq_answered rfl, finishWrite_judge, he]
  rfl

/-- Settles O35: at each width, an answer of the width's own length decodes and any other fails. -/
theorem rdWholeCommand : Obligations.RdWholeCommand := by
  intro s hi f bytes r rest he hd hwf hb ha
  obtain ⟨h0, h1⟩ : f.rsv0 = 0#8 ∧ f.rsv1 = 0#16 := reserved_eq_zero_of_wellFormed hwf
  have hdw : f.dw = 1#2 ∨ f.dw = 2#2 := dw_legal_of_wellFormed hwf rfl
  rw [run_oneTransaction he hd (fun _ => exec_rd_issues rfl h0 h1 hb hdw) ha, exec_rd_answered rfl, he]
  rcases hdw with hdw | hdw <;> rw [hdw]
  all_goals
    match r with
    | .fail => rfl
    | .ok [] => rfl
    | .ok [_] => rfl
    | .ok [_, _] => rfl
    | .ok (_ :: _ :: _ :: _) => rfl

end Sys2Proof.Machine

/-! PROOF. The register table player step by step: `WTBL`, `WTBLS` and `WALL` from their start (O23, O27,
O28), a table's start and end (O25, O26), the commands after an answer (O24, O29) and after a settle wait
(O30, O31), the settle wait (O32), and what the three commands leave unchanged (O33). -/

namespace Sys2Proof.Machine

/-! ### Entries (R141) -/

theorem toNat_eq_zero_iff {v : Half} : v.toNat = 0 ↔ v = 0#16 := BitVec.toNat_inj (y := 0#16)

theorem legal_of_not_illegal {c : WidthCode} (h : ¬ (c = 0#2 ∨ c = 3#2)) : c = 1#2 ∨ c = 2#2 :=
  of_not_not fun hl => h (not_legal_iff.mp hl)

theorem aw_legal_of_wellFormed {i : Instr} (h : i.wellFormed = true) (hu : i.usesAw = true) :
    i.fields.aw = 1#2 ∨ i.fields.aw = 2#2 := by
  simp only [Instr.wellFormed, Instr.widthsLegal, WidthCode.legal, hu, Bool.not_true, Bool.false_or,
    Bool.and_eq_true, Bool.or_eq_true, beq_iff_eq] at h
  exact h.2.1

section Entries

variable {aw dw : WidthCode} {base n i : Nat} {done : Result → State → Out} {s : State}

/-- The model stops at an entry nothing has written (R194). -/
theorem issueEntry_unwritten (h : memRead s.tmem (base + i) = none) :
    issueEntry aw dw base i s = .fault (.unwrittenTmem (base + i)) := by
  simp only [issueEntry, h]

/-- At legal widths the write of a written entry is issued. -/
theorem issueEntry_written (ha : aw = 1#2 ∨ aw = 2#2) (hd : dw = 1#2 ∨ dw = 2#2) {e : Word}
    (h : memRead s.tmem (base + i) = some e) :
    issueEntry aw dw base i s =
      .next (({ s with cur := ⟨s.cur.tbl, i⟩ } : State).transact (entryFrame aw dw e) 0) := by
  simp only [issueEntry_legal ha hd, h]

theorem beginEntries_zero :
    beginEntries aw dw base 0 done s = done (emptyResult s.params.emptyTable) s := rfl

theorem beginEntries_of_ne_zero (h : n ≠ 0) :
    beginEntries aw dw base n done s = issueEntry aw dw base 0 s := if_neg h

theorem nextEntry_fail : nextEntry aw dw base n done .fail s = done .transportFailure s := rfl

/-- After a success the entry counts, and the next one is issued. -/
theorem nextEntry_of_lt {rb : List Byte} (h : s.cur.ent + 1 < n) :
    nextEntry aw dw base n done (.ok rb) s = issueEntry aw dw base (s.cur.ent + 1) s.passEntry := if_pos h

/-- After the last success the entry counts, and the result is Ok. -/
theorem nextEntry_of_not_lt {rb : List Byte} (h : ¬ s.cur.ent + 1 < n) :
    nextEntry aw dw base n done (.ok rb) s = done .ok s.passEntry := if_neg h

end Entries

/-! ### The commands from their start (R146, R147, R148) -/

section Start

variable {f : Fields} {s : State} (he : s.eng = .exec .start) (h0 : f.rsv0 = 0#8) (h1 : f.rsv1 = 0#16)
  (ha : f.aw = 1#2 ∨ f.aw = 2#2)
include he h0 h1 ha

theorem exec_wtbl_start (hd : f.dw = 1#2 ∨ f.dw = 2#2) :
    exec (.wtbl f) s =
      if s.params.tmemEntries < f.opa.toNat + f.opb.toNat then .next (s.complete .invalidArgument)
      else beginEntries f.aw f.dw f.opa.toNat f.opb.toNat finishTbl s := by
  simp only [exec, execWtbl, resumeOf_of_exec he, checkReserved_of_zero h0 h1, legal_iff.mpr ha,
    legal_iff.mpr hd, Bool.and_self, Bool.true_eq_false, if_false]

theorem exec_wtbls_start :
    exec (.wtbls f) s =
      if s.params.tdescEntries ≤ f.opa.toNat then .next (s.complete .invalidArgument)
      else loadTable f.aw f.opa.toNat 0 s := by
  simp only [exec, execWtbls, resumeOf_of_exec he, checkReserved_of_zero h0 h1, legal_iff.mpr ha,
    Bool.true_eq_false, if_false]

theorem exec_wall_start :
    exec (.wall f) s =
      if f.opb.toNat = 0 then .next (s.complete (emptyResult s.params.emptyList))
      else if s.params.tdescEntries < f.opa.toNat + f.opb.toNat then
        .next (s.complete .invalidArgument)
      else loadTable f.aw f.opa.toNat 0 s := by
  simp only [exec, execWall, resumeOf_of_exec he, checkReserved_of_zero h0 h1, legal_iff.mpr ha,
    Bool.true_eq_false, if_false]

end Start

/-- Settles O23: the field errors first, then the range, the empty table and the first entry. -/
theorem wtblStarts : Obligations.WtblStarts := by
  intro f s he
  obtain ⟨hreserved, hwidths⟩ := fieldErrorsComeFirst (.wtbl f) s he
  split
  case isTrue h => exact hreserved h
  case isFalse h =>
    obtain ⟨h0, h1⟩ : f.rsv0 = 0#8 ∧ f.rsv1 = 0#16 := by simpa using h
    split
    case isTrue hw => exact hwidths h0 h1 (hw.imp (⟨rfl, ·⟩) (⟨rfl, ·⟩))
    case isFalse hw =>
      have hw := not_or.mp hw
      have ha := legal_of_not_illegal hw.1
      have hd := legal_of_not_illegal hw.2
      rw [exec_wtbl_start he h0 h1 ha hd]
      refine ite_congr rfl (fun _ => rfl) fun _ =>
        ite_congr (propext toNat_eq_zero_iff) (fun _ => ?_) fun _ => ?_
      · cases s.params.emptyTable <;> rfl
      · cases hm : memRead s.tmem f.opa.toNat with
        | none => exact issueEntry_unwritten hm
        | some e => exact issueEntry_written ha hd hm

/-- `PlayTable` begins with the descriptor of its table, if one is written (R147, R148, R194). -/
theorem loadTable_eq (aw : WidthCode) (k j : Nat) (s : State) :
    loadTable aw k j s =
      match memRead s.tdesc (k + j) with
      | none => .fault (.unwrittenTdesc (k + j))
      | some d => startTable aw j d s := by
  unfold loadTable
  cases memRead s.tdesc (k + j) <;> rfl

/-- Settles O27: the field errors first, then the index, then the descriptor's table. -/
theorem wtblsStarts : Obligations.WtblsStarts := by
  intro f s he
  obtain ⟨hreserved, hwidths⟩ := fieldErrorsComeFirst (.wtbls f) s he
  split
  case isTrue h => exact hreserved h
  case isFalse h =>
    obtain ⟨h0, h1⟩ : f.rsv0 = 0#8 ∧ f.rsv1 = 0#16 := by simpa using h
    split
    case isTrue hw => exact hwidths h0 h1 (.inl ⟨rfl, hw⟩)
    case isFalse hw =>
      rw [exec_wtbls_start he h0 h1 (legal_of_not_illegal hw)]
      exact ite_congr rfl (fun _ => rfl) fun _ => loadTable_eq f.aw f.opa.toNat 0 s

/-- Settles O28: the field errors first, then the empty list, the range and the first table. -/
theorem wallStarts : Obligations.WallStarts := by
  intro f s he
  obtain ⟨hreserved, hwidths⟩ := fieldErrorsComeFirst (.wall f) s he
  split
  case isTrue h => exact hreserved h
  case isFalse h =>
    obtain ⟨h0, h1⟩ : f.rsv0 = 0#8 ∧ f.rsv1 = 0#16 := by simpa using h
    split
    case isTrue hw => exact hwidths h0 h1 (.inl ⟨rfl, hw⟩)
    case isFalse hw =>
      rw [exec_wall_start he h0 h1 (legal_of_not_illegal hw)]
      refine ite_congr (propext toNat_eq_zero_iff) (fun _ => ?_) fun _ =>
        ite_congr rfl (fun _ => rfl) fun _ => loadTable_eq f.aw f.opa.toNat 0 s
      cases s.params.emptyList <;> rfl

/-! ### A table's start and end (R143) -/

/-- Settles O25: the width, the range, the empty table and the first entry, in that order. -/
theorem playTableStarts : Obligations.PlayTableStarts := by
  intro aw j d s ha t
  refine ite_congr (propext legal_eq_false) (fun _ => rfl) fun hw =>
    ite_congr rfl (fun _ => rfl) fun _ => ite_congr (propext toNat_eq_zero_iff) (fun _ => ?_) fun _ => ?_
  · cases s.params.emptyTable <;> rfl
  · cases hm : memRead s.tmem (descBase d).toNat with
    | none => exact issueEntry_unwritten (s := t) hm
    | some e => exact issueEntry_written (s := t) ha (legal_of_not_illegal hw) hm

/-- Settles O26: the settle wait, or the completion with the table's result. -/
theorem playTableEnds : Obligations.PlayTableEnds := by
  intro r s
  unfold endTable
  split <;> rfl

/-! ### The commands after an answer (R141, R143) -/

section Answered

variable {f : Fields} {s : State} {v : Response} (he : s.eng = .exec (.answered v))
include he

theorem exec_wtbl_answered :
    exec (.wtbl f) s = nextEntry f.aw f.dw f.opa.toNat f.opb.toNat finishTbl v s := by
  simp only [exec, execWtbl, resumeOf_of_exec he]

/-- `WTBLS` and `WALL` go on alike within a table. -/
theorem exec_table_answered {i : Instr} (hi : i = .wtbls f ∨ i = .wall f) :
    exec i s =
      nextEntry f.aw (descDw s.desc) (descBase s.desc).toNat (descCount s.desc).toNat endTable v s := by
  rcases hi with rfl | rfl
  · simp only [exec, execWtbls, resumeOf_of_exec he, nextTableEntry]
  · simp only [exec, execWall, resumeOf_of_exec he, nextTableEntry]

end Answered

/-- Settles O24: `WTBL` goes on as `PlayEntries` does over its range. -/
theorem wtblContinues : Obligations.WtblContinues := by
  intro f s v he ha hd
  rw [exec_wtbl_answered he]
  cases v with
  | fail => rfl
  | ok rb =>
    refine ite_congr rfl (fun _ => ?_) fun _ => rfl
    cases hm : memRead s.tmem (f.opa.toNat + (s.cur.ent + 1)) with
    | none => exact issueEntry_unwritten (s := s.passEntry) hm
    | some e => exact issueEntry_written (s := s.passEntry) ha hd hm

/-- Settles O29: both commands go on as `PlayEntries` does over the descriptor's table. -/
theorem tableEntryAnswered : Obligations.TableEntryAnswered := by
  intro f s v i hi he ha hd
  rw [exec_table_answered he hi]
  cases v with
  | fail => rfl
  | ok rb =>
    refine ite_congr rfl (fun _ => ?_) fun _ => rfl
    cases hm : memRead s.tmem ((descBase s.desc).toNat + (s.cur.ent + 1)) with
    | none => exact issueEntry_unwritten (s := s.passEntry) hm
    | some e => exact issueEntry_written (s := s.passEntry) ha hd hm

/-! ### The commands after a settle wait (R147, R148) -/

/-- Settles O30: the completion with the table's result, `TBL_DONE` counting a table that succeeded. -/
theorem wtblsCompletes : Obligations.WtblsCompletes := by
  intro f s he
  simp only [exec, execWtbls, resumeOf_of_exec he]
  split <;> rfl

/-- Settles O31: a failed table, the next table, or the completion after the last. -/
theorem wallContinues : Obligations.WallContinues := by
  intro f s he
  simp only [exec, execWall, resumeOf_of_exec he, ne_eq, ite_not]
  exact ite_congr rfl (fun _ => ite_congr rfl (fun _ => loadTable_eq _ _ _ _) fun _ => rfl) fun _ => rfl

/-! ### The settle wait (R145) -/

/-- Settles O32: the start is `State.startSettle` written out, the engine's turn ends the wait when it is
over, and no other turn but the reset reaches it. -/
theorem settleWaitsAtLeast : Obligations.SettleWaitsAtLeast := by
  refine ⟨fun s ms => rfl, fun s es he htrace ht => ?_, fun s he hengine hreset => ?_⟩
  · rw [step_eq, ht, takeTurn_engine]
    simp only [engineTurn, he, settleOver, decide_eq_true_eq, State.endSettle, htrace, recordFinish]
    split <;> rfl
  · have hb : isBusy s = true := isBusy_eq_true.mpr (by simp [he])
    rw [step_eq]
    cases ht : s.turn with
    | engine => exact absurd ht hengine
    | host a =>
      refine ⟨_, rfl, ?_⟩
      rw [hostAct_busy (s := { s with agenda := s.agenda.tail }) hb a]
      exact ⟨he, hb, rfl, rfl, rfl, rfl⟩
    | transport r =>
      refine ⟨_, rfl, ?_⟩
      rcases answer_cases { s with agenda := s.agenda.tail } r with ⟨q, hw, -, -⟩ | ⟨-, e⟩
      · cases he.symm.trans hw
      · rw [e]
        exact ⟨he, hb, rfl, rfl, rfl, rfl⟩
    | time dt => exact ⟨_, rfl, he, hb, rfl, rfl, rfl, rfl⟩
    | reset => exact absurd ht hreset

/-! ### What the commands change -/

/-- The operations of `PlayEntries` keep `P`: to complete, to issue a write, to move the cursor (R141). -/
structure KeptByEntries (P : State → Prop) : Prop where
  complete : ∀ u code, P u → P (u.complete code)
  transact : ∀ u bs n, P u → P (u.transact bs n)
  moveCursor : ∀ (u : State) e c, P u → P { u with entDone := e, cur := c }

/-- The operations of `PlayTable` keep `P`: those of `PlayEntries`, to take a descriptor, to set `PEND`, to
settle, to count the table (R143, R147, R148). -/
structure KeptByTables (P : State → Prop) : Prop extends KeptByEntries P where
  setDesc : ∀ (u : State) d, P u → P { u with desc := d }
  setPend : ∀ (u : State) r, P u → P { u with pend := r }
  startSettle : ∀ u ms, P u → P (u.startSettle ms)
  passTable : ∀ u j, P u → P (u.passTable j)

section Kept

variable {P : State → Prop} {f : Fields} {s t : State} {aw dw : WidthCode} {base n i j k : Nat}
  {done : Result → State → Out}

theorem checkReserved_kept {rest : Out} (hP : KeptByEntries P) (h : checkReserved f s rest = .next t)
    (hs : P s) (hr : rest = .next t → P t) : P t := by
  rcases checkReserved_next h with rfl | ⟨-, h⟩
  · exact hP.complete s _ hs
  · exact hr h

theorem issueEntry_kept (hP : KeptByEntries P) (h : issueEntry aw dw base i s = .next t) (hs : P s) :
    P t := by
  obtain ⟨e, -, ⟨-, rfl⟩ | ⟨bs, -, rfl⟩⟩ := issueEntry_next h
  · exact hP.complete s _ hs
  · exact hP.transact _ _ _ (hP.moveCursor s s.entDone _ hs)

theorem beginEntries_kept (hP : KeptByEntries P) (h : beginEntries aw dw base n done s = .next t)
    (hs : P s) (hdone : ∀ r, done r s = .next t → P t) : P t := by
  by_cases hn : n = 0
  · subst hn; exact hdone _ h
  · rw [beginEntries_of_ne_zero hn] at h
    exact issueEntry_kept hP h hs

theorem nextEntry_kept {v : Response} (hP : KeptByEntries P)
    (h : nextEntry aw dw base n done v s = .next t) (hs : P s)
    (hdone : ∀ r u, P u → done r u = .next t → P t) : P t := by
  have hp : P s.passEntry := hP.moveCursor s _ _ hs
  cases v with
  | fail => exact hdone _ s hs h
  | ok rb =>
    by_cases hn : s.cur.ent + 1 < n
    · rw [nextEntry_of_lt hn] at h
      exact issueEntry_kept hP h hp
    · rw [nextEntry_of_not_lt hn] at h
      exact hdone _ _ hp h

theorem finishTbl_kept {r : Result} (hP : KeptByEntries P) (h : finishTbl r s = .next t) (hs : P s) :
    P t := by
  cases h
  exact hP.complete s r hs

theorem endTable_kept {r : Result} (hP : KeptByTables P) (h : endTable r s = .next t) (hs : P s) :
    P t := by
  have hp := hP.setPend s r hs
  rcases endTable_cases r s with ⟨-, e⟩ | ⟨-, -, e⟩ <;> rw [e] at h <;> cases h
  · exact hP.startSettle _ _ hp
  · exact hP.complete _ r hp

theorem loadTable_kept (hP : KeptByTables P) (h : loadTable aw k j s = .next t) (hs : P s) : P t := by
  rw [loadTable_eq] at h
  cases hm : memRead s.tdesc (k + j) with
  | none => rw [hm] at h; cases h
  | some d =>
    rw [hm] at h
    have hp := hP.setDesc _ d (hP.moveCursor s 0#16 ⟨j, 0⟩ hs)
    simp only [startTable] at h
    split at h
    · exact endTable_kept hP h hp
    · split at h
      · exact endTable_kept hP h hp
      · exact beginEntries_kept hP.toKeptByEntries h hp fun r h => endTable_kept hP h hp

theorem exec_wtbl_kept (hP : KeptByEntries P) (h : exec (.wtbl f) s = .next t) (hs : P s) : P t := by
  simp only [exec, execWtbl] at h
  split at h
  case h_1 => exact nextEntry_kept hP h hs fun r u hu h => finishTbl_kept hP h hu
  all_goals
    refine checkReserved_kept hP h hs fun h => ?_
    split at h
    · cases h; exact hP.complete s _ hs
    · split at h
      · cases h; exact hP.complete s _ hs
      · exact beginEntries_kept hP h hs fun r h => finishTbl_kept hP h hs

theorem exec_wtbls_kept (hP : KeptByTables P) (h : exec (.wtbls f) s = .next t) (hs : P s) : P t := by
  simp only [exec, execWtbls] at h
  split at h
  case h_1 => exact nextEntry_kept hP.toKeptByEntries h hs fun r u hu h => endTable_kept hP h hu
  case h_2 =>
    split at h <;> cases h
    · exact hP.complete _ _ (hP.passTable s 0 hs)
    · exact hP.complete s _ hs
  case h_3 =>
    refine checkReserved_kept hP.toKeptByEntries h hs fun h => ?_
    split at h
    · cases h; exact hP.complete s _ hs
    · split at h
      · cases h; exact hP.complete s _ hs
      · exact loadTable_kept hP h hs

theorem exec_wall_kept (hP : KeptByTables P) (h : exec (.wall f) s = .next t) (hs : P s) : P t := by
  simp only [exec, execWall] at h
  split at h
  case h_1 => exact nextEntry_kept hP.toKeptByEntries h hs fun r u hu h => endTable_kept hP h hu
  case h_2 =>
    have hp := hP.passTable s s.cur.tbl hs
    split at h
    · split at h
      · exact loadTable_kept hP h hp
      · cases h; exact hP.complete _ _ hp
    · cases h; exact hP.complete s _ hs
  case h_3 =>
    refine checkReserved_kept hP.toKeptByEntries h hs fun h => ?_
    split at h
    · cases h; exact hP.complete s _ hs
    · split at h
      · cases h; exact hP.complete s _ hs
      · split at h
        · cases h; exact hP.complete s _ hs
        · exact loadTable_kept hP h hs

end Kept

/-- The tables' operations write none of `RDATA`, `FRAME` and `FRAME_LEN`. -/
theorem sameResults_keptByTables (s : State) : KeptByTables (SameResults s) where
  complete _ _ h := h
  transact _ _ _ h := h
  moveCursor _ _ _ h := h
  setDesc _ _ h := h
  setPend _ _ h := h
  startSettle _ _ h := h
  passTable _ _ h := h

/-- The operations `WTBL` uses leave `TBL_DONE` and the tier. -/
theorem tblDone_tier_keptByEntries (s : State) :
    KeptByEntries fun u => u.tblDone = s.tblDone ∧ u.tier = s.tier where
  complete _ _ h := h
  transact _ _ _ h := h
  moveCursor _ _ _ h := h

/-- An engine step changes the tier only with the start of a settle wait (R145). -/
theorem EndsAs.tier {s t : State} (h : EndsAs s t) : t.tier = s.tier ∨ t.eng = .settle := by
  rcases h with ⟨u, c, hu, rfl⟩ | ⟨u, bs, n, hu, rfl, -, -⟩ | ⟨u, -, rfl, -⟩
  · exact .inl (by rw [hu]; rfl)
  · exact .inl (by rw [hu]; rfl)
  · exact .inr rfl

/-- Settles O33: the frame of every engine step, and what the player's operations keep besides. -/
theorem tableCommandFrame : Obligations.TableCommandFrame := by
  intro f i s t hi hx
  have hend := exec_ends hx
  obtain ⟨htmem, htdesc, hseq, hlo, hhi, hdev, hovr, hnow, -⟩ := hend.frame
  have hP := sameResults_keptByTables s
  obtain ⟨hrdata, hframe, hlen⟩ : SameResults s t := by
    rcases hi with rfl | rfl | rfl
    · exact exec_wtbl_kept hP.toKeptByEntries hx ⟨rfl, rfl, rfl⟩
    · exact exec_wtbls_kept hP hx ⟨rfl, rfl, rfl⟩
    · exact exec_wall_kept hP hx ⟨rfl, rfl, rfl⟩
  refine ⟨fun a => by rw [htmem], fun a => by rw [htdesc], fun a => by rw [hseq], hlo, hhi, hdev, hovr,
    hrdata, hframe, hlen, hnow, hend.tier, ?_⟩
  rintro rfl
  exact exec_wtbl_kept (tblDone_tier_keptByEntries s) hx ⟨rfl, rfl⟩

end Sys2Proof.Machine

/-! PROOF. Whole runs of the player: `WTBL` over a table, to its end and to its first failure (O37, O38),
`WTBLS` on a table and its settle wait (O39), `WALL` over its list of tables, to its end and to its first
failure (O40, O41). A run is followed from a state `p` whose step starts a table or issues an entry in a
state `s`: `s` has taken the engine's turn, and its agenda is what comes after. -/

namespace Sys2Proof.Machine

/-! ### Runs and turns -/

/-- A run goes on from where a shorter one ended. -/
theorem run_add {s t : State} {n : Nat} (h : Host.Core.run core n s = .next t) (m : Nat) :
    Host.Core.run core (n + m) s = Host.Core.run core m t := by
  induction n generalizing s with
  | zero =>
    cases h
    rw [Nat.zero_add]
  | succ n ih =>
    cases hs : step s with
    | next u =>
      rw [run_succ hs] at h
      rw [Nat.add_right_comm, run_succ hs, ih h]
    | fault r =>
      have hs' : core.step s = .fault r := hs
      simp [Host.Core.run, hs'] at h
    | refused r =>
      have hs' : core.step s = .refused r := hs
      simp [Host.Core.run, hs'] at h

theorem run_add_step {s t u : State} {n : Nat} (h : Host.Core.run core n s = .next t)
    (hs : step t = .next u) : Host.Core.run core (n + 1) s = .next u :=
  (run_add h 1).trans ((run_one t).trans hs)

/-- The last of `n + 1` accepted writes. -/
theorem okTurns_succ (n : Nat) : okTurns (n + 1) = okTurns n ++ [.transport (.ok []), .engine] := by
  induction n with
  | zero => rfl
  | succ n ih => exact congrArg (fun turns => .transport (.ok []) :: .engine :: turns) ih

@[simp] theorem length_okTurns (n : Nat) : (okTurns n).length = 2 * n := by
  induction n with
  | zero => rfl
  | succ n ih => simp [okTurns, ih, Nat.mul_add]

@[simp] theorem TableRun.length_turns (r : TableRun) : r.turns.length = 2 * r.es.length + 3 := by
  simp [TableRun.turns]

theorem holdsFrom_cons {α : Type} {m : Mem α} {k : Nat} {e : α} {es : List α} :
    holdsFrom m k (e :: es) ↔ memRead m k = some e ∧ holdsFrom m (k + 1) es := by
  have shift (j : Nat) : k + 1 + j = k + (j + 1) := by omega
  constructor
  · intro h
    refine ⟨h 0 (by simp), fun j hj => ?_⟩
    rw [shift]
    exact h (j + 1) (by simpa using hj)
  · rintro ⟨h0, hs⟩ (_ | j) hj
    · exact h0
    · exact shift j ▸ hs j (by simpa using hj)

theorem holdsFrom_append_singleton {α : Type} {m : Mem α} {k : Nat} {es : List α} {e : α}
    (h : holdsFrom m k (es ++ [e])) : holdsFrom m k es ∧ memRead m (k + es.length) = some e := by
  refine ⟨fun j hj => ?_, by simpa using h es.length (by simp)⟩
  have hj' := h j (by rw [List.length_append]; omega)
  rwa [List.getElem_append_left hj] at hj'

/-- `s` with `turns` the turns still to come. -/
def State.withAgenda (s : State) (turns : List Turn) : State := { s with agenda := turns }

/-- The host's write to `CMD_HI` launches the command (R40). -/
theorem step_launch {s : State} {hi : Word} {turns : List Turn} (he : s.eng = .idle)
    (ha : s.agenda = .host (.writeReg 0x04 hi) :: turns) : step s = .next (s.launched hi turns) :=
  step_writeReg_idle he ha

/-- The engine's turn while it executes runs the latched command. -/
theorem step_engine {s : State} {r : Resume} {i : Instr} {turns : List Turn} (he : s.eng = .exec r)
    (hd : decode s.lcmd = .ok i) (ha : s.agenda = .engine :: turns) :
    step s = exec i (s.withAgenda turns) :=
  (stepRunsDecodedCommand s r i he hd).2 turns ha

/-- The transport's answer to the transaction just issued. -/
theorem step_answer_transact {s : State} {bs : List Byte} {n : Nat} {r : Response} {turns : List Turn}
    (ha : s.agenda = .transport r :: turns) :
    step (s.transact bs n) = .next ((s.withAgenda turns).answeredWith bs n r) :=
  step_answer (s := s.transact bs n) ha rfl rfl rfl

/-! ### A run over entries (R141) -/

/-- One more transaction counted (R31). -/
theorem add_ofNat_add_one (count : Word) (n : Nat) :
    count + BitVec.ofNat 32 n + 1#32 = count + BitVec.ofNat 32 (n + 1) := by
  rw [BitVec.ofNat_add, BitVec.add_assoc]

/-- `s` after the writes of `es` from entry `CUR.ent` on: what they do to PROGRESS, the cursor, the count
and the history. -/
def State.entriesWritten (s : State) (aw dw : WidthCode) (es : List Word) : State :=
  { s with
    entDone := BitVec.ofNat 16 (s.cur.ent + es.length)
    cur := ⟨s.cur.tbl, s.cur.ent + es.length⟩
    txnCount := s.txnCount + BitVec.ofNat 32 es.length
    trace := (es.map (entryEvent s.devAddr aw dw (.ok []))).reverse ++ s.trace }

/-- With PROGRESS at the cursor, no write changes nothing. -/
theorem State.entriesWritten_nil {s : State} (h : s.entDone = BitVec.ofNat 16 s.cur.ent)
    (aw dw : WidthCode) : s.entriesWritten aw dw [] = s := by
  simp [State.entriesWritten, ← h]

/-- `s` after the write of the entry at the cursor has been accepted and the cursor has passed it. -/
def State.entryPassed (s : State) (aw dw : WidthCode) (e : Word) : State :=
  (s.answeredWith (entryFrame aw dw e) 0 (.ok [])).passEntry

/-- A first entry, then the others; the request and the engine's phase are as the last write left them. -/
theorem State.entriesWritten_cons (s : State) (aw dw : WidthCode) (e : Word) (es : List Word)
    (bs : List Byte) (n : Nat) (r : Response) :
    ((s.entryPassed aw dw e).entriesWritten aw dw es).answeredWith bs n r =
      (s.entriesWritten aw dw (e :: es)).answeredWith bs n r := by
  have hlen : s.cur.ent + 1 + es.length = s.cur.ent + (es.length + 1) := by omega
  have hcount : s.txnCount + 1#32 + BitVec.ofNat 32 es.length =
      s.txnCount + BitVec.ofNat 32 (es.length + 1) := by
    rw [BitVec.add_assoc, BitVec.add_comm 1#32, ← BitVec.add_assoc, add_ofNat_add_one]
  simp [State.entriesWritten, State.entryPassed, State.answeredWith, State.passEntry, hlen, hcount,
    entryEvent]

/-- The entries before, then a last one. -/
theorem State.entryPassed_entriesWritten (s : State) (aw dw : WidthCode) (es : List Word) (e : Word) :
    (s.entriesWritten aw dw es).entryPassed aw dw e =
      { s.entriesWritten aw dw (es ++ [e]) with req := none, eng := .exec (.answered (.ok [])) } := by
  simp [State.entriesWritten, State.entryPassed, State.answeredWith, State.passEntry, add_ofNat_add_one,
    entryEvent, judge, Nat.add_assoc]

/-- After an answer in the table of descriptor `d`, command `i` goes on as `PlayEntries` over the `n`
entries at `base`, with `done` for the result. -/
def PlaysEntries (i : Instr) (aw dw : WidthCode) (base n : Nat) (done : Result → State → Out)
    (d : DWord) : Prop :=
  ∀ (u : State) (v : Response), u.eng = .exec (.answered v) → u.desc = d →
    exec i u = nextEntry aw dw base n done v u

theorem playsEntries_wtbl (f : Fields) (d : DWord) :
    PlaysEntries (.wtbl f) f.aw f.dw f.opa.toNat f.opb.toNat finishTbl d :=
  fun _ _ he _ => exec_wtbl_answered he

theorem playsEntries_table {i : Instr} {f : Fields} (hi : i = .wtbls f ∨ i = .wall f) (d : DWord) :
    PlaysEntries i f.aw (descDw d) (descBase d).toNat (descCount d).toNat endTable d :=
  fun _ _ he hd => hd ▸ exec_table_answered he hi

section Entries

variable {i : Instr} {aw dw : WidthCode} {base n : Nat} {done : Result → State → Out} {p s : State}
  (ha : aw = 1#2 ∨ aw = 2#2) (hd : dw = 1#2 ∨ dw = 2#2)
  (hplay : PlaysEntries i aw dw base n done s.desc) (hi : decode s.lcmd = .ok i)
  (hp : step p = issueEntry aw dw base s.cur.ent s)
include ha hd hplay hi hp

/-- One entry: it is issued and answered, and the engine's next step goes on from there. -/
theorem run_entry {e : Word} {r : Response} {rest : List Turn}
    (hm : memRead s.tmem (base + s.cur.ent) = some e)
    (hag : s.agenda = .transport r :: .engine :: rest) :
    ∃ q, Host.Core.run core 2 p = .next q ∧
      step q = nextEntry aw dw base n done (judge 0 r)
        ((s.withAgenda rest).answeredWith (entryFrame aw dw e) 0 r) := by
  rw [issueEntry_written ha hd hm] at hp
  have hanswer : step (s.transact (entryFrame aw dw e) 0) =
      .next ((s.withAgenda (.engine :: rest)).answeredWith (entryFrame aw dw e) 0 r) :=
    step_answer_transact hag
  have hnext : step ((s.withAgenda (.engine :: rest)).answeredWith (entryFrame aw dw e) 0 r) =
      exec i ((s.withAgenda rest).answeredWith (entryFrame aw dw e) 0 r) :=
    step_engine (s := (s.withAgenda (.engine :: rest)).answeredWith _ 0 r) rfl hi rfl
  exact ⟨_, (run_succ hp 1).trans ((run_one _).trans hanswer), hnext.trans (hplay _ _ rfl rfl)⟩

/-- The entries `es` are accepted and the next one, `e`, is answered `r`. -/
theorem run_entries {es : List Word} {e : Word} {r : Response} {rest : List Turn}
    (hent : s.entDone = BitVec.ofNat 16 s.cur.ent)
    (hm : holdsFrom s.tmem (base + s.cur.ent) (es ++ [e])) (hn : s.cur.ent + es.length < n)
    (hag : s.agenda = okTurns es.length ++ .transport r :: .engine :: rest) :
    Host.Core.run core (2 * es.length + 3) p =
      nextEntry aw dw base n done (judge 0 r)
        (((s.withAgenda rest).entriesWritten aw dw es).answeredWith (entryFrame aw dw e) 0 r) := by
  induction es generalizing p s with
  | nil =>
    obtain ⟨q, hrun, hq⟩ := run_entry ha hd hplay hi hp (holdsFrom_cons.mp hm).1 hag
    rw [State.entriesWritten_nil (s := s.withAgenda rest) hent]
    exact (run_add hrun 1).trans ((run_one q).trans hq)
  | cons e' es ih =>
    obtain ⟨hm0, hm⟩ := holdsFrom_cons.mp hm
    rw [List.length_cons] at hn
    obtain ⟨q, hrun, hq⟩ := run_entry ha hd hplay hi hp hm0 hag
    have hnext : step q = issueEntry aw dw base (s.cur.ent + 1)
        ((s.withAgenda (okTurns es.length ++ .transport r :: .engine :: rest)).entryPassed aw dw e') :=
      hq.trans (nextEntry_of_lt (show s.cur.ent + 1 < n by omega))
    have hrest := ih
      (s := (s.withAgenda (okTurns es.length ++ .transport r :: .engine :: rest)).entryPassed aw dw e')
      hplay hi hnext rfl hm (show s.cur.ent + 1 + es.length < n by omega) rfl
    rw [show 2 * (e' :: es).length + 3 = 2 + (2 * es.length + 3) by rw [List.length_cons]; omega,
      run_add hrun, hrest]
    exact congrArg _ (State.entriesWritten_cons (s.withAgenda rest) aw dw e' es _ 0 r)

/-- All `n` entries are accepted: the result is Ok. -/
theorem run_entries_accepted {es : List Word} {rest : List Turn} (hne : es ≠ [])
    (hent : s.entDone = BitVec.ofNat 16 s.cur.ent) (hm : holdsFrom s.tmem (base + s.cur.ent) es)
    (hn : s.cur.ent + es.length = n) (hag : s.agenda = okTurns es.length ++ rest) :
    Host.Core.run core (2 * es.length + 1) p =
      done .ok { (s.withAgenda rest).entriesWritten aw dw es with
        req := none
        eng := .exec (.answered (.ok [])) } := by
  obtain ⟨es, e, rfl⟩ := (List.eq_nil_or_concat' es).resolve_left hne
  rw [List.length_append, List.length_singleton] at hn hag ⊢
  rw [okTurns_succ, List.append_assoc] at hag
  have hlast : ¬ s.cur.ent + es.length + 1 < n := by omega
  have hrun := run_entries ha hd hplay hi hp (r := .ok []) hent hm (by omega) hag
  rw [← State.entryPassed_entriesWritten]
  exact hrun.trans (nextEntry_of_not_lt hlast)

end Entries

/-! ### `WTBL` over its range (R146) -/

/-- The engine's turn after the launch runs the command from its start. -/
theorem step_launched {s : State} {hi : Word} {i : Instr} (hd : decode (hi ++ s.cmdLo) = .ok i)
    (turns : List Turn) : step (s.launched hi (.engine :: turns)) = exec i (s.launched hi turns) :=
  step_engine (s := s.launched hi (.engine :: turns)) rfl hd rfl

/-- A launched `WTBL` with a range in `TMEM` that is not empty issues its first entry. -/
theorem step_wtbl_launched {s : State} {hi : Word} {f : Fields}
    (hd : decode (hi ++ s.cmdLo) = .ok (.wtbl f)) (hwf : (Instr.wtbl f).wellFormed = true)
    (hr : f.opa.toNat + f.opb.toNat ≤ s.params.tmemEntries) (hz : f.opb.toNat ≠ 0) (turns : List Turn) :
    step (s.launched hi (.engine :: turns)) =
      issueEntry f.aw f.dw f.opa.toNat 0 (s.launched hi turns) := by
  obtain ⟨h0, h1⟩ : f.rsv0 = 0#8 ∧ f.rsv1 = 0#16 := reserved_eq_zero_of_wellFormed hwf
  have hr : ¬ (s.launched hi turns).params.tmemEntries < f.opa.toNat + f.opb.toNat := hr.not_gt
  rw [step_launched hd, exec_wtbl_start rfl h0 h1 (aw_legal_of_wellFormed hwf rfl)
    (dw_legal_of_wellFormed hwf rfl), if_neg hr, beginEntries_of_ne_zero hz]

/-- Settles O37: the launch, the run over the entries, and the completion with Ok. -/
theorem wtblAppliesWholeTable : Obligations.WtblAppliesWholeTable := by
  intro s hi f es rest he hd hwf hr hl hne hm ha
  have haw : f.aw = 1#2 ∨ f.aw = 2#2 := aw_legal_of_wellFormed hwf rfl
  have hdw : f.dw = 1#2 ∨ f.dw = 2#2 := dw_legal_of_wellFormed hwf rfl
  have hz : f.opb.toNat ≠ 0 := hl ▸ List.length_eq_zero_iff.not.mpr hne
  have hopb : f.opb = BitVec.ofNat 16 es.length := by simp [hl]
  have hrun := run_entries_accepted (s := s.launched hi (okTurns es.length ++ rest)) haw hdw
    (playsEntries_wtbl f _) hd (step_wtbl_launched hd hwf hr hz _) hne rfl hm ((Nat.zero_add _).trans hl) rfl
  refine (run_succ (step_launch he ha) (2 * es.length + 1)).trans
    (hrun.trans (congrArg Host.Outcome.next ?_))
  simp [State.complete, State.entriesWritten, State.withAgenda, State.launched, State.launch, hopb, he]

/-- Settles O38: the launch, the run over the accepted entries, and the failure of the next. -/
theorem wtblStopsAtFirstFailure : Obligations.WtblStopsAtFirstFailure := by
  intro s hi f es e rest he hd hwf hr hl hm ha
  have haw : f.aw = 1#2 ∨ f.aw = 2#2 := aw_legal_of_wellFormed hwf rfl
  have hdw : f.dw = 1#2 ∨ f.dw = 2#2 := dw_legal_of_wellFormed hwf rfl
  have hrun := run_entries (r := .fail)
    (s := s.launched hi (okTurns es.length ++ .transport .fail :: .engine :: rest))
    haw hdw (playsEntries_wtbl f _) hd (step_wtbl_launched hd hwf hr (by omega) _) rfl hm
    ((Nat.zero_add _).trans_lt hl) rfl
  refine (run_succ (step_launch he ha) (2 * es.length + 3)).trans
    (hrun.trans (congrArg Host.Outcome.next ?_))
  simp [State.complete, State.entriesWritten, State.answeredWith, State.withAgenda, State.launched,
    State.launch, entryEvent, add_ofNat_add_one, he]

/-! ### A run over a table and its settle wait (R143, R145) -/

/-- `s` on entry 0 of the table of list index `j` with descriptor `d`. -/
def State.tableEntered (s : State) (j : Nat) (d : DWord) : State :=
  { s with entDone := 0#16, desc := d, cur := ⟨j, 0⟩ }

/-- A table of a legal width in range plays its entries. -/
theorem startTable_in_range {d : DWord} {s : State} (hw : descDw d = 1#2 ∨ descDw d = 2#2)
    (hr : (descBase d).toNat + (descCount d).toNat ≤ s.params.tmemEntries) (aw : WidthCode) (j : Nat) :
    startTable aw j d s =
      beginEntries aw (descDw d) (descBase d).toNat (descCount d).toNat endTable (s.tableEntered j d) := by
  simp only [startTable, legal_iff.mpr hw, Bool.true_eq_false, if_false, if_neg hr.not_gt]
  rfl

theorem endTable_ok (s : State) :
    endTable .ok s = .next (({ s with pend := .ok } : State).startSettle (descDelay s.desc)) :=
  if_pos (.inl rfl)

theorem endTable_of_failed {r : Result} {s : State} (hr : r ≠ .ok)
    (hs : s.params.settleAfterFailure = false) :
    endTable r s = .next (({ s with pend := r } : State).complete r) :=
  if_neg (by simp [hr, hs])

/-- A settle wait that time lets pass is over at the engine's next turn (R145). -/
theorem run_settle {s : State} {ms : Half} {dt : Nat} {rest : List Turn}
    (hag : s.agenda = .time dt :: .engine :: rest) (hdt : ms.toNat * 1000 ≤ dt) :
    Host.Core.run core 2 (s.startSettle ms) =
      .next (((s.withAgenda rest).startSettle ms).advance dt).endSettle := by
  have hwait : step (s.startSettle ms) =
      .next (((s.withAgenda (.engine :: rest)).startSettle ms).advance dt) :=
    step_cons (s := s.startSettle ms) hag
  have hover : settleOver (((s.withAgenda rest).startSettle ms).advance dt) = true :=
    (settleOver_iff _).mpr (show ms.toNat * 1000 ≤ s.now + dt - s.now by omega)
  rw [run_succ hwait, run_one, step_cons (rest := rest) rfl]
  exact if_pos hover

/-- `s` after the table `r` of list index `j` has been applied and its settle wait has ended, with the
request `q` of the last answer. -/
def State.tableSettled (s : State) (aw : WidthCode) (j : Nat) (r : TableRun) (q : Option Request) : State :=
  { s with
    entDone := BitVec.ofNat 16 r.es.length
    cur := ⟨j, r.es.length⟩
    txnCount := s.txnCount + BitVec.ofNat 32 r.es.length
    req := q
    desc := r.d
    pend := .ok
    settleMs := descDelay r.d
    settleT0 := s.now
    tier := decide (20 < (descDelay r.d).toNat)
    now := s.now + r.dt
    eng := .exec .settled
    trace := .settle (descDelay r.d) s.now (some (.over (s.now + r.dt))) ::
      ((r.es.map (entryEvent s.devAddr aw (descDw r.d) (.ok []))).reverse ++ s.trace) }

/-- The writes of the table, then its settle wait. -/
theorem State.tableSettled_eq (s : State) (aw : WidthCode) (j : Nat) (r : TableRun) (q : Option Request)
    (eng : Eng) :
    ((({ (s.tableEntered j r.d).entriesWritten aw (descDw r.d) r.es with
      req := q, eng := eng, pend := .ok } : State).startSettle (descDelay r.d)).advance r.dt).endSettle =
      s.tableSettled aw j r q := by
  simp [State.tableSettled, State.tableEntered, State.entriesWritten, State.startSettle, State.advance,
    State.endSettle, recordFinish, tierOf]

section Table

variable {i : Instr} {f : Fields} {j : Nat} {r : TableRun} {p s : State} {rest : List Turn}
  (hi : i = .wtbls f ∨ i = .wall f) (hd : decode s.lcmd = .ok i) (ha : f.aw = 1#2 ∨ f.aw = 2#2)
  (hfits : r.fits s) (hp : step p = startTable f.aw j r.d s)
include hi hd ha hfits hp

/-- A table that fits, its writes accepted, ends with Ok. -/
theorem run_table_entries (hag : s.agenda = okTurns r.es.length ++ rest) :
    ∃ q eng, Host.Core.run core (2 * r.es.length + 1) p =
      endTable .ok { ((s.withAgenda rest).tableEntered j r.d).entriesWritten f.aw (descDw r.d) r.es with
        req := q
        eng := eng } := by
  obtain ⟨hw, hrange, hlen, hm, hempty, -⟩ := hfits
  rw [startTable_in_range hw hrange] at hp
  by_cases hne : r.es = []
  · rw [hne] at hlen hag ⊢
    rw [← hlen] at hp
    have hok : emptyResult (s.tableEntered j r.d).params.emptyTable = .ok := congrArg emptyResult (hempty hne)
    refine ⟨s.req, s.eng, (run_one p).trans (hp.trans ?_)⟩
    rw [List.length_nil, beginEntries_zero, hok, State.entriesWritten_nil rfl]
    exact congrArg _ (congrArg (fun turns => (s.tableEntered j r.d).withAgenda turns) hag)
  · have hz : (descCount r.d).toNat ≠ 0 := hlen ▸ List.length_eq_zero_iff.not.mpr hne
    rw [beginEntries_of_ne_zero hz] at hp
    exact ⟨_, _, run_entries_accepted (s := s.tableEntered j r.d) ha hw (playsEntries_table hi _) hd hp hne
      rfl hm ((Nat.zero_add _).trans hlen) hag⟩

/-- A table that fits is applied and its settle wait ends. -/
theorem run_table (hag : s.agenda = okTurns r.es.length ++ .time r.dt :: .engine :: rest) :
    ∃ q, Host.Core.run core (2 * r.es.length + 3) p =
      .next ((s.withAgenda rest).tableSettled f.aw j r q) := by
  obtain ⟨q, eng, hrun⟩ := run_table_entries hi hd ha hfits hp hag
  obtain ⟨-, -, -, -, -, hdt⟩ := hfits
  rw [endTable_ok] at hrun
  refine ⟨q, (run_add hrun 2).trans ((run_settle rfl hdt).trans (congrArg Host.Outcome.next ?_))⟩
  exact (s.withAgenda rest).tableSettled_eq f.aw j r q eng

end Table

/-! ### What a list of tables leaves behind (R64, R69) -/

/-- `t` is `s` but for what the player changes: its registers, the engine, the hidden state, the clock, the
history and the agenda. -/
def PlayerKeeps (s t : State) : Prop :=
  t = { s with
    err := t.err, tier := t.tier, entDone := t.entDone, tblDone := t.tblDone, txnCount := t.txnCount,
    eng := t.eng, cur := t.cur, req := t.req, settleT0 := t.settleT0, settleMs := t.settleMs,
    pend := t.pend, desc := t.desc, now := t.now, trace := t.trace, agenda := t.agenda }

theorem PlayerKeeps.trans {s t u : State} (h : PlayerKeeps s t) (k : PlayerKeeps t u) : PlayerKeeps s u := by
  unfold PlayerKeeps at *
  rw [k, h]

theorem PlayerKeeps.frame {s t : State} (h : PlayerKeeps s t) :
    t.lcmd = s.lcmd ∧ t.params = s.params ∧ t.ovr = s.ovr ∧ t.tmem = s.tmem ∧ t.tdesc = s.tdesc ∧
    t.seqbuf = s.seqbuf ∧ t.devAddr = s.devAddr ∧ t.rdata = s.rdata ∧ t.frame = s.frame ∧
    t.frameLen = s.frameLen := by
  rw [h]
  exact ⟨rfl, rfl, rfl, rfl, rfl, rfl, rfl, rfl, rfl, rfl⟩

/-- From `s` to `t` the tables `rs` have been applied, each with its settle wait. -/
structure TablesApplied (aw : WidthCode) (rs : List TableRun) (s t : State) : Prop where
  keeps : PlayerKeeps s t
  txnCount : t.txnCount = s.txnCount + BitVec.ofNat 32 (tablesEntries rs)
  now : t.now = s.now + tablesTime rs
  history : t.history = s.history ++ tablesEvents s.devAddr aw s.now rs

@[simp] theorem tablesEntries_singleton (r : TableRun) : tablesEntries [r] = r.es.length := by
  simp [tablesEntries]

@[simp] theorem tablesTime_singleton (r : TableRun) : tablesTime [r] = r.dt := by simp [tablesTime]

@[simp] theorem tablesEntries_append (rs rs' : List TableRun) :
    tablesEntries (rs ++ rs') = tablesEntries rs + tablesEntries rs' := by simp [tablesEntries]

@[simp] theorem tablesTime_append (rs rs' : List TableRun) :
    tablesTime (rs ++ rs') = tablesTime rs + tablesTime rs' := by simp [tablesTime]

theorem tablesEvents_append (dev : BitVec 7) (aw : WidthCode) (now : Nat) (rs rs' : List TableRun) :
    tablesEvents dev aw now (rs ++ rs') =
      tablesEvents dev aw now rs ++ tablesEvents dev aw (now + tablesTime rs) rs' := by
  induction rs generalizing now with
  | nil => rfl
  | cons r rs ih => simp [tablesEvents, tablesTime, ih, Nat.add_assoc]

theorem TablesApplied.nil (aw : WidthCode) (s : State) : TablesApplied aw [] s s where
  keeps := rfl
  txnCount := by simp [tablesEntries]
  now := rfl
  history := by simp [tablesEvents]

theorem TablesApplied.append {aw : WidthCode} {rs rs' : List TableRun} {s t u : State}
    (h : TablesApplied aw rs s t) (k : TablesApplied aw rs' t u) : TablesApplied aw (rs ++ rs') s u where
  keeps := h.keeps.trans k.keeps
  txnCount := by rw [k.txnCount, h.txnCount, tablesEntries_append, BitVec.ofNat_add, BitVec.add_assoc]
  now := by rw [k.now, h.now, tablesTime_append, Nat.add_assoc]
  history := by
    obtain ⟨-, -, -, -, -, -, hdev, -⟩ := h.keeps.frame
    rw [k.history, h.history, hdev, h.now, tablesEvents_append, List.append_assoc]

theorem TablesApplied.passTable {aw : WidthCode} {rs : List TableRun} {s t : State}
    (h : TablesApplied aw rs s t) (j : Nat) : TablesApplied aw rs s (t.passTable j) :=
  ⟨h.keeps.trans rfl, h.txnCount, h.now, h.history⟩

theorem TablesApplied.complete {aw : WidthCode} {rs : List TableRun} {s t : State}
    (h : TablesApplied aw rs s t) (code : Result) : TablesApplied aw rs s (t.complete code) :=
  ⟨h.keeps.trans rfl, h.txnCount, h.now, h.history⟩

/-- From `s` to `t` the table `r` of list index `j` has been applied and its settle wait has ended; the
command has still to go on from there. -/
structure TableSettled (aw : WidthCode) (j : Nat) (r : TableRun) (s t : State) : Prop where
  applied : TablesApplied aw [r] s t
  eng : t.eng = .exec .settled
  pend : t.pend = .ok
  cur : t.cur = ⟨j, r.es.length⟩
  entDone : t.entDone = BitVec.ofNat 16 r.es.length
  tblDone : t.tblDone = s.tblDone
  tier : t.tier = decide (20 < (descDelay r.d).toNat)

theorem tableSettled_withAgenda (s : State) (aw : WidthCode) (j : Nat) (r : TableRun)
    (q : Option Request) (turns : List Turn) :
    TableSettled aw j r s ((s.withAgenda turns).tableSettled aw j r q) where
  applied :=
    { keeps := rfl
      txnCount := by rw [tablesEntries_singleton]; rfl
      now := by rw [tablesTime_singleton]; rfl
      history := by simp [State.history, State.tableSettled, State.withAgenda, tablesEvents] }
  eng := rfl
  pend := rfl
  cur := rfl
  entDone := rfl
  tblDone := rfl
  tier := rfl

theorem TableRun.fits_of_keeps {r : TableRun} {s t : State} (h : PlayerKeeps s t) (hr : r.fits s) :
    r.fits t := by
  obtain ⟨-, hparams, -, htmem, -⟩ := h.frame
  unfold TableRun.fits at *
  rw [hparams, htmem]
  exact hr

/-- A run over a table that fits, up to the engine's turn after its settle wait. -/
theorem run_table_turns {i : Instr} {f : Fields} {j : Nat} {r : TableRun} {p s : State} {rest : List Turn}
    (hi : i = .wtbls f ∨ i = .wall f) (hd : decode s.lcmd = .ok i) (ha : f.aw = 1#2 ∨ f.aw = 2#2)
    (hfits : r.fits s) (hp : step p = startTable f.aw j r.d s) (hag : s.agenda = r.turns ++ rest) :
    ∃ q t, Host.Core.run core r.turns.length p = .next q ∧ step q = exec i t ∧
      TableSettled f.aw j r s t ∧ t.agenda = rest := by
  have hag : s.agenda = okTurns r.es.length ++ .time r.dt :: .engine :: .engine :: rest := by
    rw [hag]
    simp [TableRun.turns]
  obtain ⟨req, hrun⟩ := run_table hi hd ha hfits hp hag
  exact ⟨_, (s.withAgenda rest).tableSettled f.aw j r req, TableRun.length_turns r ▸ hrun,
    step_engine (turns := rest) (s := (s.withAgenda (.engine :: rest)).tableSettled f.aw j r req) rfl hd rfl,
    tableSettled_withAgenda s f.aw j r req rest, rfl⟩

/-! ### `WTBLS` (R147) -/

theorem loadTable_of_written {aw : WidthCode} {k j : Nat} {s : State} {d : DWord}
    (h : memRead s.tdesc (k + j) = some d) : loadTable aw k j s = startTable aw j d s := by
  rw [loadTable_eq, h]

/-- After the settle wait of a table that succeeded `WTBLS` completes. -/
theorem exec_wtbls_settled {s : State} (f : Fields) (he : s.eng = .exec .settled) (hp : s.pend = .ok) :
    exec (.wtbls f) s = .next ((s.passTable 0).complete .ok) :=
  (wtblsCompletes f s he).trans (congrArg Host.Outcome.next (if_pos hp))

/-- Settles O39: the launch, the run over the table and its wait, and the completion with Ok. -/
theorem wtblsAppliesTableAndSettles : Obligations.WtblsAppliesTableAndSettles := by
  intro s hi f r rest he hd hwf hk hm hfits ha
  have haw : f.aw = 1#2 ∨ f.aw = 2#2 := aw_legal_of_wellFormed hwf rfl
  obtain ⟨h0, h1⟩ : f.rsv0 = 0#8 ∧ f.rsv1 = 0#16 := reserved_eq_zero_of_wellFormed hwf
  have hstart : step (s.launched hi (.engine :: (r.turns ++ rest))) =
      startTable f.aw 0 r.d (s.launched hi (r.turns ++ rest)) := by
    rw [step_launched hd, exec_wtbls_start rfl h0 h1 haw]
    exact (if_neg hk.not_ge).trans (loadTable_of_written hm)
  obtain ⟨q, t, hrun, hq, ht, hag⟩ :=
    run_table_turns (s := s.launched hi (r.turns ++ rest)) (.inl rfl) hd haw hfits hstart rfl
  have hlast : step q = .next ((t.passTable 0).complete .ok) :=
    hq.trans (exec_wtbls_settled f ht.eng ht.pend)
  obtain ⟨-, -, hlen, -⟩ := hfits
  obtain ⟨-, -, hovr, htmem, htdesc, hseq, hdev, hrdata, hframe, hflen⟩ := ht.applied.keeps.frame
  refine ⟨(t.passTable 0).complete .ok, ?_, rfl, rfl, hag, hovr, ?_, rfl, ?_, ht.tier, ?_,
    ht.applied.now, ht.applied.history, htmem, htdesc, hseq, hdev, hrdata, hframe, hflen⟩
  · exact (run_succ (step_launch he ha) _).trans (run_add_step hrun hlast)
  · exact ht.entDone.trans (by simp [hlen])
  · exact congrArg (Cursor.mk 1) (congrArg Cursor.ent ht.cur)
  · exact ht.applied.txnCount.trans (by rw [tablesEntries_singleton]; rfl)

/-! ### `WALL` over its list (R148) -/

/-- After the settle wait of a table that succeeded `WALL` goes on to the next table. -/
theorem exec_wall_settled_of_lt {f : Fields} {s : State} (he : s.eng = .exec .settled) (hp : s.pend = .ok)
    (hn : s.cur.tbl + 1 < f.opb.toNat) :
    exec (.wall f) s = loadTable f.aw f.opa.toNat (s.cur.tbl + 1) (s.passTable s.cur.tbl) :=
  (wallContinues f s he).trans ((if_neg (not_not.mpr hp)).trans ((if_pos hn).trans
    (loadTable_eq f.aw f.opa.toNat (s.cur.tbl + 1) (s.passTable s.cur.tbl)).symm))

/-- After the settle wait of the last table `WALL` completes. -/
theorem exec_wall_settled_of_not_lt {f : Fields} {s : State} (he : s.eng = .exec .settled)
    (hp : s.pend = .ok) (hn : ¬ s.cur.tbl + 1 < f.opb.toNat) :
    exec (.wall f) s = .next ((s.passTable s.cur.tbl).complete .ok) :=
  (wallContinues f s he).trans ((if_neg (not_not.mpr hp)).trans (if_neg hn))

/-- A launched `WALL` with a list in `TDESC` that is not empty loads its first table. -/
theorem step_wall_launched {s : State} {hi : Word} {f : Fields}
    (hd : decode (hi ++ s.cmdLo) = .ok (.wall f)) (hwf : (Instr.wall f).wellFormed = true)
    (hr : f.opa.toNat + f.opb.toNat ≤ s.params.tdescEntries) (hz : f.opb.toNat ≠ 0) (turns : List Turn) :
    step (s.launched hi (.engine :: turns)) = loadTable f.aw f.opa.toNat 0 (s.launched hi turns) := by
  obtain ⟨h0, h1⟩ : f.rsv0 = 0#8 ∧ f.rsv1 = 0#16 := reserved_eq_zero_of_wellFormed hwf
  rw [step_launched hd, exec_wall_start rfl h0 h1 (aw_legal_of_wellFormed hwf rfl), if_neg hz]
  exact if_neg hr.not_gt

theorem tablesTurns_cons (r : TableRun) (rs : List TableRun) :
    tablesTurns (r :: rs) = r.turns ++ tablesTurns rs := rfl

theorem tablesTurns_append_singleton (rs : List TableRun) (r : TableRun) :
    tablesTurns (rs ++ [r]) = tablesTurns rs ++ r.turns := by simp [tablesTurns]

section Wall

variable {f : Fields} {j : Nat} {p s : State} {rest : List Turn}
  (hd : decode s.lcmd = .ok (.wall f)) (ha : f.aw = 1#2 ∨ f.aw = 2#2)
  (hp : step p = loadTable f.aw f.opa.toNat j s)
include hd ha hp

/-- The tables `rs` from list index `j` on are applied, and the engine's next step loads the table after
them. -/
theorem run_tables {rs : List TableRun} (hfits : ∀ r ∈ rs, r.fits s)
    (hm : holdsFrom s.tdesc (f.opa.toNat + j) (rs.map TableRun.d)) (hn : j + rs.length < f.opb.toNat)
    (htbl : s.tblDone = BitVec.ofNat 16 j) (hag : s.agenda = tablesTurns rs ++ rest) :
    ∃ q t, Host.Core.run core (tablesTurns rs).length p = .next q ∧
      step q = loadTable f.aw f.opa.toNat (j + rs.length) t ∧ TablesApplied f.aw rs s t ∧
      t.tblDone = BitVec.ofNat 16 (j + rs.length) ∧ t.agenda = rest := by
  induction rs generalizing j p s with
  | nil => exact ⟨p, s, rfl, hp, .nil f.aw s, htbl, hag⟩
  | cons r rs ih =>
    rw [List.length_cons] at hn ⊢
    rw [tablesTurns_cons, List.append_assoc] at hag
    obtain ⟨hr, hfits⟩ := List.forall_mem_cons.mp hfits
    obtain ⟨hm0, hm⟩ := holdsFrom_cons.mp hm
    obtain ⟨q, t, hrun, hq, ht, hag⟩ :=
      run_table_turns (.inr rfl) hd ha hr (hp.trans (loadTable_of_written hm0)) hag
    have hkeeps := ht.applied.keeps
    obtain ⟨hlcmd, -, -, -, htdesc, -⟩ := hkeeps.frame
    have htbl : t.cur.tbl = j := congrArg Cursor.tbl ht.cur
    have hload : step q = loadTable f.aw f.opa.toNat (j + 1) (t.passTable j) := by
      rw [hq, exec_wall_settled_of_lt ht.eng ht.pend (by omega), htbl]
    have hassoc : j + 1 + rs.length = j + (rs.length + 1) := by omega
    obtain ⟨q', t', hrest, hq', happ, htbl', hag'⟩ := ih (s := t.passTable j) (hlcmd ▸ hd) hload
      (fun r hr => TableRun.fits_of_keeps (hkeeps.trans rfl) (hfits r hr)) (htdesc ▸ hm) (by omega) rfl hag
    refine ⟨q', t', ?_, hassoc ▸ hq', (ht.applied.passTable j).append happ, hassoc ▸ htbl', hag'⟩
    rw [tablesTurns_cons, List.length_append, run_add hrun, hrest]

end Wall

/-- A launched `WALL` applies the tables `rs`, and the engine's next step starts the table after them, of
descriptor `d`. -/
theorem run_launched_tables {s : State} {hi : Word} {f : Fields} {rs : List TableRun} {d : DWord}
    {rest : List Turn} (he : s.eng = .idle) (hd : decode (hi ++ s.cmdLo) = .ok (.wall f))
    (hwf : (Instr.wall f).wellFormed = true) (hr : f.opa.toNat + f.opb.toNat ≤ s.params.tdescEntries)
    (hn : rs.length < f.opb.toNat) (hm : holdsFrom s.tdesc f.opa.toNat (rs.map TableRun.d ++ [d]))
    (hfits : ∀ r ∈ rs, r.fits s)
    (ha : s.agenda = .host (.writeReg 0x04 hi) :: .engine :: (tablesTurns rs ++ rest)) :
    ∃ q t, Host.Core.run core ((tablesTurns rs).length + 1) s = .next q ∧
      step q = startTable f.aw rs.length d t ∧
      TablesApplied f.aw rs (s.launched hi (tablesTurns rs ++ rest)) t ∧
      t.tblDone = BitVec.ofNat 16 rs.length ∧ t.agenda = rest := by
  obtain ⟨hm, hnext⟩ := holdsFrom_append_singleton hm
  rw [List.length_map] at hnext
  obtain ⟨q, t, hrun, hq, happ, htbl, hag⟩ :=
    run_tables (s := s.launched hi (tablesTurns rs ++ rest)) hd (aw_legal_of_wellFormed hwf rfl)
      (step_wall_launched hd hwf hr (by omega) _) hfits hm ((Nat.zero_add _).trans_lt hn) rfl rfl
  obtain ⟨-, -, -, -, htdesc, -⟩ := happ.keeps.frame
  rw [Nat.zero_add] at hq htbl
  exact ⟨q, t, (run_succ (step_launch he ha) _).trans hrun,
    hq.trans (loadTable_of_written ((congrArg (memRead · _) htdesc).trans hnext)), happ, htbl, hag⟩

/-- Settles O40: the run over all tables but the last, the last table, and the completion with Ok. -/
theorem wallAppliesTablesInOrder : Obligations.WallAppliesTablesInOrder := by
  intro s hi f rs rest he hd hwf hr hl hne hm hfits ha
  have haw : f.aw = 1#2 ∨ f.aw = 2#2 := aw_legal_of_wellFormed hwf rfl
  obtain ⟨rs, r, rfl⟩ := (List.eq_nil_or_concat' rs).resolve_left hne
  obtain ⟨hfits, hlastFits⟩ := List.forall_mem_append.mp hfits
  have hlastFits : r.fits s := hlastFits r (List.mem_singleton_self r)
  rw [List.map_append] at hm
  rw [List.length_append, List.length_singleton] at hl
  rw [tablesTurns_append_singleton, List.append_assoc] at ha
  obtain ⟨q, t, hrun, hq, happ, -, hag⟩ := run_launched_tables he hd hwf hr (by omega) hm hfits ha
  obtain ⟨hlcmd, -⟩ := happ.keeps.frame
  obtain ⟨q', t', hrun', hq', ht, hag'⟩ := run_table_turns (.inr rfl) (hlcmd ▸ hd) haw
    (TableRun.fits_of_keeps happ.keeps hlastFits) hq hag
  have hcur : t'.cur.tbl = rs.length := congrArg Cursor.tbl ht.cur
  have hlast : step q' = .next ((t'.passTable rs.length).complete .ok) := by
    rw [hq', exec_wall_settled_of_not_lt ht.eng ht.pend (by omega), hcur]
  have happ' := happ.append ht.applied
  obtain ⟨-, -, hovr, htmem, htdesc, hseq, hdev, hrdata, hframe, hflen⟩ := happ'.keeps.frame
  obtain ⟨-, -, hlen, -⟩ := hlastFits
  refine ⟨(t'.passTable rs.length).complete .ok, ?_, rfl, rfl, hag', hovr, ?_, ?_, ?_, happ'.txnCount,
    happ'.now, happ'.history, htmem, htdesc, hseq, hdev, hrdata, hframe, hflen⟩
  · rw [show (tablesTurns (rs ++ [r])).length + 2 = (tablesTurns rs).length + 1 + r.turns.length + 1 by
      rw [tablesTurns_append_singleton, List.length_append]; omega]
    exact run_add_step ((run_add hrun _).trans hrun') hlast
  · exact (congrArg (BitVec.ofNat 16) hl).trans (by simp)
  · simp
  · have hlt : r.es.length < 65536 := by omega
    simp [ht.entDone, ht.cur, hlt]

/-- `s` after the entries `es` of the table of list index `j` have been written and the write of the next,
`e`, has failed, with no settle wait after it. -/
def State.tableFailed (s : State) (aw : WidthCode) (j : Nat) (d : DWord) (es : List Word) (e : Word) :
    State :=
  { s with
    err := .transportFailure
    entDone := BitVec.ofNat 16 es.length
    cur := ⟨j, es.length⟩
    txnCount := s.txnCount + BitVec.ofNat 32 es.length + 1#32
    req := none
    desc := d
    pend := .transportFailure
    eng := .idle
    trace := entryEvent s.devAddr aw (descDw d) .fail e ::
      ((es.map (entryEvent s.devAddr aw (descDw d) (.ok []))).reverse ++ s.trace) }

/-- The accepted writes of the table, the failed one, and the completion. -/
theorem State.tableFailed_eq (s : State) (aw : WidthCode) (j : Nat) (d : DWord) (es : List Word) (e : Word) :
    ({ ((s.tableEntered j d).entriesWritten aw (descDw d) es).answeredWith (entryFrame aw (descDw d) e) 0
      .fail with pend := .transportFailure } : State).complete .transportFailure =
      s.tableFailed aw j d es e := by
  simp [State.tableFailed, State.tableEntered, State.entriesWritten, State.answeredWith, State.complete,
    entryEvent]

theorem State.tableFailed_history (s : State) (aw : WidthCode) (j : Nat) (d : DWord) (es : List Word)
    (e : Word) (turns : List Turn) :
    ((s.withAgenda turns).tableFailed aw j d es e).history = s.history ++
      es.map (entryEvent s.devAddr aw (descDw d) (.ok [])) ++ [entryEvent s.devAddr aw (descDw d) .fail e] := by
  simp [State.history, State.tableFailed, State.withAgenda]

@[simp] theorem judge_fail (n : Nat) : judge n .fail = .fail := rfl

/-- A table whose first failing entry is `e` ends the command when a failure does not settle (R142, R143). -/
theorem run_failing_table {i : Instr} {f : Fields} {j : Nat} {d : DWord} {es : List Word} {e : Word}
    {p s : State} {rest : List Turn} (hi : i = .wtbls f ∨ i = .wall f) (hd : decode s.lcmd = .ok i)
    (ha : f.aw = 1#2 ∨ f.aw = 2#2) (hw : descDw d = 1#2 ∨ descDw d = 2#2)
    (hs : s.params.settleAfterFailure = false)
    (hr : (descBase d).toNat + (descCount d).toNat ≤ s.params.tmemEntries)
    (hn : es.length < (descCount d).toNat) (hm : holdsFrom s.tmem (descBase d).toNat (es ++ [e]))
    (hp : step p = startTable f.aw j d s)
    (hag : s.agenda = okTurns es.length ++ .transport .fail :: .engine :: rest) :
    Host.Core.run core (2 * es.length + 3) p = .next ((s.withAgenda rest).tableFailed f.aw j d es e) := by
  rw [startTable_in_range hw hr, beginEntries_of_ne_zero (by omega)] at hp
  have hrun := run_entries (s := s.tableEntered j d) (r := .fail) ha hw (playsEntries_table hi d) hd hp rfl hm
    ((Nat.zero_add _).trans_lt hn) hag
  rw [judge_fail, nextEntry_fail, endTable_of_failed] at hrun
  · exact hrun.trans (congrArg Host.Outcome.next ((s.withAgenda rest).tableFailed_eq f.aw j d es e))
  · decide
  · exact hs

/-- Settles O41: the run over the tables before, then the failing table. -/
theorem wallStopsAtFirstFailure : Obligations.WallStopsAtFirstFailure := by
  intro s hi f rs d es e rest he hd hwf hs hr hn hm hfits hw hrange hlt hes ha
  have haw : f.aw = 1#2 ∨ f.aw = 2#2 := aw_legal_of_wellFormed hwf rfl
  obtain ⟨q, t, hrun, hq, happ, htbl, hag⟩ := run_launched_tables he hd hwf hr hn hm hfits ha
  obtain ⟨hlcmd, hparams, hovr, htmem, htdesc, hseq, hdev, hrdata, hframe, hflen⟩ := happ.keeps.frame
  have hfail := run_failing_table (.inr rfl) (hlcmd ▸ hd) haw hw (hparams ▸ hs) (hparams ▸ hrange) hlt
    (htmem ▸ hes) hq hag
  refine ⟨(t.withAgenda rest).tableFailed f.aw rs.length d es e, ?_, rfl, rfl, rfl, hovr, htbl, rfl, rfl, ?_,
    happ.now, ?_, htmem, htdesc, hseq, hdev, hrdata, hframe, hflen⟩
  · rw [show (tablesTurns rs).length + 2 * es.length + 4 =
      ((tablesTurns rs).length + 1) + (2 * es.length + 3) by omega]
    exact (run_add hrun _).trans hfail
  · rw [← add_ofNat_add_one, BitVec.ofNat_add, ← BitVec.add_assoc]
    exact congrArg (· + BitVec.ofNat 32 es.length + 1#32) happ.txnCount
  · rw [State.tableFailed_history, happ.history, hdev]
    rfl

end Sys2Proof.Machine

/-! PROOF. Reset and what follows it: the values after reset, the reset event in any state, the idle CPB, and
the host's accesses while busy (O48, O52, O53, O54, O55). -/

namespace Sys2Proof.Machine

/-! ### The idle engine -/

/-- An idle engine has nothing to do (R192). -/
theorem engineTurn_of_idle {s : State} (he : s.eng = .idle) : engineTurn s = .next s := by
  simp only [engineTurn, he]

/-- An answer that finds the engine idle is ignored (R190). -/
theorem answer_of_idle {s : State} (he : s.eng = .idle) (r : Response) : s.answer r = s := by
  rcases answer_cases s r with ⟨q, hw, -, -⟩ | ⟨-, e⟩
  · cases he.symm.trans hw
  · exact e

/-- On an idle engine every host action but a launch leaves it idle, and leaves the request, `ERR` and
`PROGRESS` (R40, R192). -/
theorem hostAct_of_idle {s : State} {a : HostAction} (he : s.eng = .idle) (h : ∀ v, a ≠ .writeReg 4 v) :
    (s.hostAct a).eng = .idle ∧ (s.hostAct a).req = s.req ∧ (s.hostAct a).err = s.err ∧
    (s.hostAct a).entDone = s.entDone ∧ (s.hostAct a).tblDone = s.tblDone := by
  rcases hostAct_idle he a with ⟨v, hv, -⟩ | ⟨_, _, -, -, e⟩ | ⟨_, _, -, -, e⟩ | ⟨_, _, -, -, e⟩ | ⟨-, e, -⟩
  case inl => exact absurd hv (h v)
  all_goals
    rw [e]
    exact ⟨he, rfl, rfl, rfl, rfl⟩

/-- On an idle engine every turn but a launch leaves it idle with the history as it is, and (reset apart) the
request, `ERR` and `PROGRESS` (R192): the engine and the transport find nothing to do, and a reset has no
settle wait to end. -/
theorem takeTurn_of_idle {s : State} {turn : Turn} (he : s.eng = .idle) (hw : ¬ turn.writesReg 0x04) :
    ∃ t, takeTurn turn s = .next t ∧ t.eng = .idle ∧ t.trace = s.trace ∧
      (turn ≠ .reset → t.req = s.req ∧ t.err = s.err ∧ t.entDone = s.entDone ∧ t.tblDone = s.tblDone) := by
  cases turn with
  | engine => exact ⟨s, engineTurn_of_idle he, he, rfl, fun _ => ⟨rfl, rfl, rfl, rfl⟩⟩
  | host a =>
    obtain ⟨heng, hkept⟩ := hostAct_of_idle he fun v hv => hw ⟨v, congrArg Turn.host hv⟩
    exact ⟨s.hostAct a, rfl, heng, State.hostAct_trace s a, fun _ => hkept⟩
  | transport r =>
    exact ⟨s, congrArg Host.Outcome.next (answer_of_idle he r), he, rfl, fun _ => ⟨rfl, rfl, rfl, rfl⟩⟩
  | time dt => exact ⟨s.advance dt, rfl, he, rfl, fun _ => ⟨rfl, rfl, rfl, rfl⟩⟩
  | reset => exact ⟨s.resetEvent, rfl, rfl, cutTrace_of_ne (by simp [he]), fun h => absurd rfl h⟩

/-- Settles O54: a step is one turn, and every turn but a launch leaves an idle engine idle. -/
theorem idleStaysIdle : Obligations.IdleStaysIdle := by
  refine ⟨rfl, fun s he hw => ?_⟩
  rw [step_eq]
  exact takeTurn_of_idle (s := { s with agenda := s.agenda.tail }) he hw

/-! ### Host writes while busy -/

section Busy

variable {s : State} (hb : isBusy s = true)
include hb

theorem writeReg_of_busy (offset : Nat) (v : Word) :
    s.writeReg offset v =
      if offset = 0x08 then { s with ovr := ovrAfterStatusWrite s.ovr v } else s.discard := if_pos hb

theorem writeTmem_of_busy (i : Nat) (v : Word) : s.writeTmem i v = s.discard := if_pos hb

theorem writeTdesc_of_busy (i : Nat) (d : DWord) : s.writeTdesc i d = s.discard := if_pos hb

theorem writeSeq_of_busy (i : Nat) (b : Byte) : s.writeSeq i b = s.discard := if_pos hb

end Busy

/-- Settles O48: a write to `STATUS` is accepted, every other write is a discard, a read has no effect. -/
theorem busyHostAccess : Obligations.BusyHostAccess := by
  intro s a rest hb ha
  have hb' : isBusy ({ s with agenda := rest } : State) = true := hb
  rw [step_cons ha]
  refine congrArg Host.Outcome.next ?_
  cases a with
  | writeReg offset v => exact writeReg_of_busy hb' offset v
  | writeTmem i v => exact writeTmem_of_busy hb' i v
  | writeTdesc i d => exact writeTdesc_of_busy hb' i d
  | writeSeq i b => exact writeSeq_of_busy hb' i b
  | readReg | readTmem | readTdesc | readSeq => rfl

/-! ### Reset -/

/-- `STATUS` reads 0 when the engine is idle and `ERR`, `OVR` and `TIER` are 0 (R24). -/
theorem statusWord_eq_zero {s : State} (he : s.eng = .idle) (herr : s.err = .ok) (hovr : s.ovr = false)
    (htier : s.tier = false) : statusWord s = 0#32 := by
  simp only [statusWord, isSettling, isBusy_eq_false.mpr he, he, herr, hovr, htier]
  rfl

/-- Settles O52: the values of `State.reset` one by one, and a reset event, which leaves the clock. -/
theorem resetStateValues : Obligations.ResetStateValues :=
  ⟨rfl, rfl, isBusy_eq_false.mpr rfl, rfl, rfl, rfl, rfl, statusWord_eq_zero rfl rfl rfl rfl, rfl, rfl, rfl, rfl,
    rfl, rfl, rfl, rfl, rfl, State.resetEvent_now⟩

/-- Settles O53: every register has its reset value, the idle engine ignores a late answer, and the history
is `cutTrace`. -/
theorem resetEventAnywhere : Obligations.ResetEventAnywhere := by
  intro s rest ha
  exact ⟨_, step_cons ha, rfl, rfl, rfl, rfl, statusWord_eq_zero rfl rfl rfl rfl, rfl, rfl, rfl, rfl, rfl, rfl,
    rfl, answer_of_idle rfl, rfl, rfl,
    fun hs => cutTrace_of_ne (s := { s with agenda := rest }) hs,
    fun _ _ _ hs htr => cutTrace_of_settle (s := { s with agenda := rest }) hs htr⟩

/-- Settles O55: the memories and the history are empty, the engine is idle with no request, and `ERR`,
`PEND`, the cursor and `PROGRESS` are 0. -/
theorem invariantAtReset : Obligations.InvariantAtReset where
  tmemWf := .nil
  tdescWf := .nil
  seqWf := .nil
  tmemIn := List.forall_mem_nil _
  tdescIn := List.forall_mem_nil _
  seqIn := List.forall_mem_nil _
  reqIff := by simp [State.reset]
  reqNewest := by simp [State.reset]
  settleNewest := by simp [State.reset]
  settleBegan := by simp [State.reset]
  settleTier := by simp [State.reset]
  settleCommand := by simp [State.reset, Eng.inSettle]
  errBusy := fun _ => rfl
  errProducible := rfl
  pendProducible := rfl
  startClean := fun _ => ⟨rfl, rfl, rfl⟩
  entCursor := rfl
  tblCursor := rfl
  entInTable := by simp [State.reset, Eng.onBus]
  tblInList := by simp [State.reset, Eng.onBus, Eng.inSettle]
  eventsLawful := List.forall_mem_nil _

end Sys2Proof.Machine
